-- ==== Sys2Proof/Word.lean ====
section
/-! DEFINITION. The bit widths of the block (00_scope.md rules R6 to R9): bytes, 16-bit words, the 4-bit and
12-bit fields of an instruction word. Every value is unsigned (R9). -/

namespace Sys2Proof

/-- A byte: a memory cell, a general register, a timer, the field kk (R6, R8). -/
abbrev Byte := BitVec 8

/-- A 16-bit word: an instruction word, PC, I, a stack entry, the level KEYS (R6, R8). -/
abbrev Word := BitVec 16

/-- The 4-bit number of a general register, the fields x and y (30_encoding.md R91): every value is legal. -/
abbrev Reg := BitVec 4

/-- A 4-bit field that is no register number: the field n, a hex key code (30_encoding.md R92, 10_state.md R47). -/
abbrev Nibble := BitVec 4

/-- A 12-bit address field nnn (30_encoding.md R92). -/
abbrev Addr := BitVec 12

/-- VF, the general register that also carries the flag (10_state.md R22). -/
abbrev regF : Reg := 0xF#4

/-- V0, the offset register of Bnnn (42_control_flow.md R197). -/
abbrev reg0 : Reg := 0x0#4

end Sys2Proof
end

