-- ==== Sys2Proof/Config.lean ====
section
/-! DEFINITION. What is fixed for the block (00_scope.md rule R6) and the one free value: the byte at the RAND input. -/

namespace Sys2Proof

/-- `MEM_SIZE`: addresses 0x000 to 0xFFF (00_scope.md R6). -/
@[simp] abbrev Config.memSize : Nat := 4096

/-- `STACK_DEPTH` (00_scope.md R6, 90_conflicts.md C3). -/
@[simp] abbrev Config.stackDepth : Nat := 16

/-- `PROGRAM_BASE`, also the reset PC (00_scope.md R6). -/
@[simp] abbrev Config.programBase : Nat := 0x200

/-- `MAX_PROGRAM` = 4096 - 0x200 bytes (00_scope.md R6). -/
@[simp] abbrev Config.maxProgram : Nat := 3584

/-- `DISPLAY_W` (00_scope.md R6). -/
@[simp] abbrev Config.displayW : Nat := 64

/-- `DISPLAY_H` (00_scope.md R6). -/
@[simp] abbrev Config.displayH : Nat := 32

/-- `FONT_BASE` (00_scope.md R6). -/
@[simp] abbrev Config.fontBase : Nat := 0x000

/-- `FONT_GLYPH_BYTES` (00_scope.md R6). -/
@[simp] abbrev Config.glyphBytes : Nat := 5

/-- DESIGN CHOICE (log 3; safe for claims about one run): the bytes the RAND input supplies, the `k`-th draw being
`rand k`. A free value: it has no body, so nothing proves which byte a draw gives (41_alu.md R170, D29: "a free
input with no law"). -/
opaque Config.rand : Nat → Byte

end Sys2Proof
end

