-- ==== Sys2Proof/Machine/State.lean ====
section
/-! DEFINITION. The state of the block as plain data: the tuple of 10_state.md rule R20, with the two fields of the
model's own that stand for the inputs KEYS and RAND (R40, R47), and the state after RESET (R38). -/

namespace Sys2Proof.Machine

/-- The memory array of 4096 bytes (10_state.md R37, 20_memory.md R60) as the list of the cells that differ from
their reset contents, addresses strictly rising (`Memory.wf` in Machine/Memory.lean). -/
abbrev Memory := List Host.Cell

/-- The register file V[0x0]..V[0xF] (R21). -/
abbrev Regs := Vector Byte 16

/-- The frame buffer, 32 rows of 64 one-bit cells (R31): row y is entry y, and the cell at column x is bit x of it
(log 14). -/
abbrev FrameBuffer := Vector (BitVec 64) 32

/-- The kinds of a fault record (60_exceptions.md R311). -/
inductive FaultKind where
  /-- Code 1, raised at DECODE by a word of no row (R314). -/
  | unknownOpcode
  /-- Code 2, raised by RET on an empty stack (R312). -/
  | stackUnderflow
  /-- Code 3, raised by CALL on a full stack (R313). -/
  | stackOverflow
  /-- Code 4, raised by FETCH, Dxyn, Fx33, Fx55 and Fx65 for an address above 0xFFF (R315). -/
  | addressOutOfRange
  deriving DecidableEq, Repr

/-- The fault record (10_state.md R34, 60_exceptions.md R311): the kind, the word being executed (none after a FETCH
fault), the PC at fetch time, and the first address above 0xFFF (AddressOutOfRange only). -/
structure FaultRecord where
  kind : FaultKind
  word : Option Word
  pc : Word
  addr : Option Nat
  deriving DecidableEq, Repr

/-- The block's complete state (10_state.md R20), then the model's own `keys` and `draws`. -/
structure State where
  /-- Memory (R37). -/
  mem : Memory
  /-- The general registers V0..VF (R21, R22). -/
  v : Regs
  /-- The address register I (R25). -/
  i : Word
  /-- The program counter (R23, R24). -/
  pc : Word
  /-- The call stack, the last element the top; SP is its length (R27, R28). -/
  stack : List Word
  /-- The delay timer DT (R29). -/
  dt : Byte
  /-- The sound timer ST (R30). -/
  st : Byte
  /-- The frame buffer (R31). -/
  fb : FrameBuffer
  /-- The paused flag (R32). -/
  paused : Bool
  /-- The register of the pending key wait, or none (R33). -/
  waitReg : Option Reg
  /-- The fault record, or none while the block runs (R34). -/
  fault : Option FaultRecord
  /-- The model's own: the level at the input KEYS, bit k = key k held (R47, 44_keys_timers.md R250; log 2). -/
  keys : Word
  /-- The model's own: how many bytes were drawn from the input RAND (41_alu.md R170; log 3). -/
  draws : Nat
  deriving DecidableEq, Repr

/-- The state right after RESET, every field as R38 gives it; memory lists nothing, so it reads as its reset contents.
`keys` and `draws` are the model's own: no key held, no byte drawn (DESIGN CHOICE, log 2 and log 3; unsafe). -/
def State.reset : State where
  mem := []
  v := Vector.replicate 16 0x00
  i := 0x0000
  pc := 0x200
  stack := []
  dt := 0x00
  st := 0x00
  fb := Vector.replicate 32 0
  paused := false
  waitReg := none
  fault := none
  keys := 0x0000
  draws := 0

/-- Reasons for the machine to stop outside the spec's own states: there are none. Every fault the spec names is a
transition to the control state HALT, a NEXT state with the fault record set (60_exceptions.md R310), so this type has
no constructor and nothing raises one (log 4; safe). -/
inductive Fault where
  deriving DecidableEq, Repr

/-- Reasons to give an instruction no meaning. -/
inductive Refusal where
  /-- Raised only by an arm of `exec` for an instruction that has no meaning yet, by its mnemonic; safe. Every
  instruction has its meaning, so no arm raises it. -/
  | notModelled (mnemonic : String)
  deriving DecidableEq, Repr

/-- What a meaning answers. -/
abbrev Result := Host.Outcome State Fault Refusal

end Sys2Proof.Machine
end

