-- ==== Sys2Proof/Machine/FrameBuffer.lean ====
section
/-! DEFINITION. The sprite engine over the frame buffer (43_display.md): TogglePixel (R222), the rows and bits of a
sprite in the order R223 scans them (R226), and the cleared buffer (R221). -/

namespace Sys2Proof.Machine

/-- The row of the frame buffer that holds `py`, wrapped into [0, 31] (R222). -/
def FrameBuffer.row (fb : FrameBuffer) (py : Nat) : BitVec 64 :=
  fb[py % 32]'(Nat.mod_lt py (by decide))

/-- The pixel fb[py mod 32][px mod 64] (R31, R222). -/
def FrameBuffer.pixel (fb : FrameBuffer) (px py : Nat) : Bool := (fb.row py).getLsbD (px % Config.displayW)

/-- The buffer with one row replaced. -/
def FrameBuffer.setRow (fb : FrameBuffer) (py : Nat) (row : BitVec 64) : FrameBuffer :=
  fb.set (py % 32) row (Nat.mod_lt py (by decide))

/-- The buffer after the XOR of TogglePixel (R222). -/
def FrameBuffer.toggle (fb : FrameBuffer) (px py : Nat) : FrameBuffer :=
  fb.setRow py (fb.row py ^^^ BitVec.twoPow 64 (px % Config.displayW))

/-- TogglePixel(px, py) (R222): the buffer, and whether the pixel is now off. -/
def togglePixel (fb : FrameBuffer) (px py : Nat) : FrameBuffer × Bool :=
  (fb.toggle px py, !(fb.toggle px py).pixel px py)

/-- One sprite row over the given columns: a set bit 7 - c toggles the pixel at xs + c (R223, R226). Answers the
buffer and whether a toggle turned a pixel off. -/
def drawColumns (row : Byte) (xs py : Nat) : List Nat → FrameBuffer → FrameBuffer × Bool
  | [], fb => (fb, false)
  | c :: cs, fb =>
    if row.getLsbD (7 - c) then
      let t := togglePixel fb (xs + c) py
      let rest := drawColumns row xs py cs t.1
      (rest.1, t.2 || rest.2)
    else drawColumns row xs py cs fb

/-- The eight columns of a sprite row, most significant bit first (R223). -/
def spriteColumns : List Nat := [0, 1, 2, 3, 4, 5, 6, 7]

/-- The rows of a sprite from top to bottom, the first at ys (R223). Answers the buffer and `hit`, the OR over all
toggles. -/
def drawRows (xs : Nat) : Nat → List Byte → FrameBuffer → FrameBuffer × Bool
  | _, [], fb => (fb, false)
  | ys, row :: rows, fb =>
    let r := drawColumns row xs ys spriteColumns fb
    let rest := drawRows xs (ys + 1) rows r.1
    (rest.1, r.2 || rest.2)

/-- The cleared frame buffer (R221). -/
def FrameBuffer.clear : FrameBuffer := Vector.replicate 32 0

end Sys2Proof.Machine
end

