-- ==== Sys2Proof/Syntax.lean ====
section
/-! DEFINITION. The 34 instructions of 30_encoding.md rule R99, one constructor per row, in the table's order. The
operands are the fields of the row's pattern, each at exactly its field's width (R91, R92), so every term of `Instr`
is an instruction some word encodes. Fields a row decodes and ignores (n of 5xyn and 9xyn, y of 8xy6 and 8xyE) are
kept, so that an instruction gives back its own word (log 6). -/

namespace Sys2Proof

/-- The instruction set CHIP-8 (base), 30_encoding.md R99. -/
inductive Instr where
  /-- 00E0 CLS (R221). -/
  | cls
  /-- 00EE RET (R190). -/
  | ret
  /-- 1nnn JP nnn (R191). -/
  | jp (nnn : Addr)
  /-- 2nnn CALL nnn (R192). -/
  | call (nnn : Addr)
  /-- 3xkk SE Vx, kk (R193). -/
  | seVxKk (x : Reg) (kk : Byte)
  /-- 4xkk SNE Vx, kk (R194). -/
  | sneVxKk (x : Reg) (kk : Byte)
  /-- 5xyn SE Vx, Vy; n is not examined (R195, R98). -/
  | seVxVy (x y : Reg) (n : Nibble)
  /-- 6xkk LD Vx, kk (R151). -/
  | ldVxKk (x : Reg) (kk : Byte)
  /-- 7xkk ADD Vx, kk (R153). -/
  | addVxKk (x : Reg) (kk : Byte)
  /-- 8xy0 LD Vx, Vy (R152). -/
  | ldVxVy (x y : Reg)
  /-- 8xy1 OR Vx, Vy (R154). -/
  | orVxVy (x y : Reg)
  /-- 8xy2 AND Vx, Vy (R155). -/
  | andVxVy (x y : Reg)
  /-- 8xy3 XOR Vx, Vy (R156). -/
  | xorVxVy (x y : Reg)
  /-- 8xy4 ADD Vx, Vy (R158). -/
  | addVxVy (x y : Reg)
  /-- 8xy5 SUB Vx, Vy (R159). -/
  | subVxVy (x y : Reg)
  /-- 8xy6 SHR Vx, with an ignored y (R160). -/
  | shr (x y : Reg)
  /-- 8xy7 SUBN Vx, Vy (R161). -/
  | subnVxVy (x y : Reg)
  /-- 8xyE SHL Vx, with an ignored y (R162). -/
  | shl (x y : Reg)
  /-- 9xyn SNE Vx, Vy; n is not examined (R196, R98). -/
  | sneVxVy (x y : Reg) (n : Nibble)
  /-- Annn LD I, nnn (R280). -/
  | ldI (nnn : Addr)
  /-- Bnnn JP V0, nnn (R197). -/
  | jpV0 (nnn : Addr)
  /-- Cxkk RND Vx, kk (R170). -/
  | rnd (x : Reg) (kk : Byte)
  /-- Dxyn DRW Vx, Vy, n (R223). -/
  | drw (x y : Reg) (n : Nibble)
  /-- Ex9E SKP Vx (R251). -/
  | skp (x : Reg)
  /-- ExA1 SKNP Vx (R252). -/
  | sknp (x : Reg)
  /-- Fx07 LD Vx, DT (R253). -/
  | ldVxDt (x : Reg)
  /-- Fx0A LD Vx, K (R254). -/
  | ldVxK (x : Reg)
  /-- Fx15 LD DT, Vx (R255). -/
  | ldDtVx (x : Reg)
  /-- Fx18 LD ST, Vx (R256). -/
  | ldStVx (x : Reg)
  /-- Fx1E ADD I, Vx (R281). -/
  | addIVx (x : Reg)
  /-- Fx29 LD F, Vx (R282). -/
  | ldFVx (x : Reg)
  /-- Fx33 LD B, Vx (R283). -/
  | ldBVx (x : Reg)
  /-- Fx55 LD [I], Vx (R284). -/
  | ldMemVx (x : Reg)
  /-- Fx65 LD Vx, [I] (R285). -/
  | ldVxMem (x : Reg)
  deriving DecidableEq, Repr

end Sys2Proof
end

