-- ==== Sys2Proof/Decode.lean ====
section
/-! DEFINITION. Fields of an instruction word (30_encoding.md R90), the two-level decoder (R93 to R100), total on any
word and on any bytes, and the encoder written from the same opcode map (R99). -/

namespace Sys2Proof

/-- Field class = w[15:12] (R90). -/
def fieldClass (w : Word) : Nibble := w.extractLsb' 12 4

/-- Field x = w[11:8] (R90, R91). -/
def fieldX (w : Word) : Reg := w.extractLsb' 8 4

/-- Field y = w[7:4] (R90, R91). -/
def fieldY (w : Word) : Reg := w.extractLsb' 4 4

/-- Field n = w[3:0] (R90). -/
def fieldN (w : Word) : Nibble := w.extractLsb' 0 4

/-- Field kk = w[7:0] (R90). -/
def fieldKk (w : Word) : Byte := w.extractLsb' 0 8

/-- Field nnn = w[11:0] (R90). -/
def fieldNnn (w : Word) : Addr := w.extractLsb' 0 12

/-- Why bytes are no instruction. `unknownOpcode`: the word matches no row of R99 (R100); the machine turns it into
the UnknownOpcode fault. `truncated`: fewer than two bytes are left; a fetch always has two, so only a listing of
bytes outside the machine meets it. -/
inductive Reject where
  | unknownOpcode (w : Word)
  | truncated (left : List Byte)
  deriving DecidableEq, Repr

/-- Class 0x0: exactly the two words 0x00E0 and 0x00EE (R94). -/
def decodeClass0 (w : Word) : Except Reject Instr :=
  if w = 0x00E0#16 then .ok .cls
  else if w = 0x00EE#16 then .ok .ret
  else .error (.unknownOpcode w)

/-- Class 0x8: the low nibble selects (R95). -/
def decodeClass8 (w : Word) : Except Reject Instr :=
  match fieldN w with
  | 0x0#4 => .ok (.ldVxVy (fieldX w) (fieldY w))
  | 0x1#4 => .ok (.orVxVy (fieldX w) (fieldY w))
  | 0x2#4 => .ok (.andVxVy (fieldX w) (fieldY w))
  | 0x3#4 => .ok (.xorVxVy (fieldX w) (fieldY w))
  | 0x4#4 => .ok (.addVxVy (fieldX w) (fieldY w))
  | 0x5#4 => .ok (.subVxVy (fieldX w) (fieldY w))
  | 0x6#4 => .ok (.shr (fieldX w) (fieldY w))
  | 0x7#4 => .ok (.subnVxVy (fieldX w) (fieldY w))
  | 0xE#4 => .ok (.shl (fieldX w) (fieldY w))
  | _ => .error (.unknownOpcode w)

/-- Class 0xE: the low byte selects (R96). -/
def decodeClassE (w : Word) : Except Reject Instr :=
  match fieldKk w with
  | 0x9E#8 => .ok (.skp (fieldX w))
  | 0xA1#8 => .ok (.sknp (fieldX w))
  | _ => .error (.unknownOpcode w)

/-- Class 0xF: the low byte selects (R97). -/
def decodeClassF (w : Word) : Except Reject Instr :=
  match fieldKk w with
  | 0x07#8 => .ok (.ldVxDt (fieldX w))
  | 0x0A#8 => .ok (.ldVxK (fieldX w))
  | 0x15#8 => .ok (.ldDtVx (fieldX w))
  | 0x18#8 => .ok (.ldStVx (fieldX w))
  | 0x1E#8 => .ok (.addIVx (fieldX w))
  | 0x29#8 => .ok (.ldFVx (fieldX w))
  | 0x33#8 => .ok (.ldBVx (fieldX w))
  | 0x55#8 => .ok (.ldMemVx (fieldX w))
  | 0x65#8 => .ok (.ldVxMem (fieldX w))
  | _ => .error (.unknownOpcode w)

/-- `Decode(w)` (40_execution.md R123): the two-level switch of R93, first on the high nibble, then, for the classes
0x0, 0x8, 0xE and 0xF, on the secondary discriminant. The last arm is class 0xF, the one class left. -/
def decode (w : Word) : Except Reject Instr :=
  match fieldClass w with
  | 0x0#4 => decodeClass0 w
  | 0x1#4 => .ok (.jp (fieldNnn w))
  | 0x2#4 => .ok (.call (fieldNnn w))
  | 0x3#4 => .ok (.seVxKk (fieldX w) (fieldKk w))
  | 0x4#4 => .ok (.sneVxKk (fieldX w) (fieldKk w))
  | 0x5#4 => .ok (.seVxVy (fieldX w) (fieldY w) (fieldN w))
  | 0x6#4 => .ok (.ldVxKk (fieldX w) (fieldKk w))
  | 0x7#4 => .ok (.addVxKk (fieldX w) (fieldKk w))
  | 0x8#4 => decodeClass8 w
  | 0x9#4 => .ok (.sneVxVy (fieldX w) (fieldY w) (fieldN w))
  | 0xA#4 => .ok (.ldI (fieldNnn w))
  | 0xB#4 => .ok (.jpV0 (fieldNnn w))
  | 0xC#4 => .ok (.rnd (fieldX w) (fieldKk w))
  | 0xD#4 => .ok (.drw (fieldX w) (fieldY w) (fieldN w))
  | 0xE#4 => decodeClassE w
  | _ => decodeClassF w

/-- Two bytes as stored, high byte first, as one word (20_memory.md R63). -/
def wordOfBytes (hi lo : Byte) : Word := hi ++ lo

/-- The high byte of a word, the one stored at the lower address (20_memory.md R63). -/
def highByte (w : Word) : Byte := w.extractLsb' 8 8

/-- The low byte of a word (20_memory.md R63). -/
def lowByte (w : Word) : Byte := w.extractLsb' 0 8

/-- The decoder on a run of bytes: every instruction is exactly two bytes (R102), big-endian (20_memory.md R63).
Answers the instruction and the bytes after it. -/
def decodeBytes : List Byte → Except Reject (Instr × List Byte)
  | hi :: lo :: rest =>
    match decode (wordOfBytes hi lo) with
    | .ok i => .ok (i, rest)
    | .error e => .error e
  | short => .error (.truncated short)

/-- A word from class and nnn (R90). -/
def wordNnn (c : Nibble) (nnn : Addr) : Word := c ++ nnn

/-- A word from class, x and kk (R90). -/
def wordXKk (c : Nibble) (x : Reg) (kk : Byte) : Word := c ++ x ++ kk

/-- A word from class, x, y and n (R90). -/
def wordXYN (c : Nibble) (x y : Reg) (n : Nibble) : Word := c ++ x ++ y ++ n

/-- The word of an instruction, from the patterns of R99. -/
def encode : Instr → Word
  | .cls => 0x00E0#16
  | .ret => 0x00EE#16
  | .jp nnn => wordNnn 0x1 nnn
  | .call nnn => wordNnn 0x2 nnn
  | .seVxKk x kk => wordXKk 0x3 x kk
  | .sneVxKk x kk => wordXKk 0x4 x kk
  | .seVxVy x y n => wordXYN 0x5 x y n
  | .ldVxKk x kk => wordXKk 0x6 x kk
  | .addVxKk x kk => wordXKk 0x7 x kk
  | .ldVxVy x y => wordXYN 0x8 x y 0x0
  | .orVxVy x y => wordXYN 0x8 x y 0x1
  | .andVxVy x y => wordXYN 0x8 x y 0x2
  | .xorVxVy x y => wordXYN 0x8 x y 0x3
  | .addVxVy x y => wordXYN 0x8 x y 0x4
  | .subVxVy x y => wordXYN 0x8 x y 0x5
  | .shr x y => wordXYN 0x8 x y 0x6
  | .subnVxVy x y => wordXYN 0x8 x y 0x7
  | .shl x y => wordXYN 0x8 x y 0xE
  | .sneVxVy x y n => wordXYN 0x9 x y n
  | .ldI nnn => wordNnn 0xA nnn
  | .jpV0 nnn => wordNnn 0xB nnn
  | .rnd x kk => wordXKk 0xC x kk
  | .drw x y n => wordXYN 0xD x y n
  | .skp x => wordXKk 0xE x 0x9E
  | .sknp x => wordXKk 0xE x 0xA1
  | .ldVxDt x => wordXKk 0xF x 0x07
  | .ldVxK x => wordXKk 0xF x 0x0A
  | .ldDtVx x => wordXKk 0xF x 0x15
  | .ldStVx x => wordXKk 0xF x 0x18
  | .addIVx x => wordXKk 0xF x 0x1E
  | .ldFVx x => wordXKk 0xF x 0x29
  | .ldBVx x => wordXKk 0xF x 0x33
  | .ldMemVx x => wordXKk 0xF x 0x55
  | .ldVxMem x => wordXKk 0xF x 0x65

/-- The bytes of an instruction as memory holds them (20_memory.md R63). -/
def encodeBytes (i : Instr) : List Byte := [highByte (encode i), lowByte (encode i)]

/-- The instruction the decoder reads from the bits `w` of a table row of `nbits` bits, numbered as
spec/opcode_table.json numbers them (bit 0 the least significant bit of the one 16-bit word); bits above `nbits`
are 0. -/
def decodeTableWord (nbits w : Nat) : Option Instr :=
  let word : Word := BitVec.ofNat 16 (w % 2 ^ nbits)
  match decodeBytes [highByte word, lowByte word] with
  | .ok (i, _) => some i
  | .error _ => none

end Sys2Proof
end

