-- ==== Sys2Proof/Machine/Memory.lean ====
section
/-! DEFINITION. The memory array (20_memory.md): its reset contents with the font (R66, R67), the read and the write
of one byte, the primitives MemRead and MemWrite with their range check (R62), and the block forms built from them. -/

namespace Sys2Proof.Machine

/-- The 80 font bytes, glyph d at 5d .. 5d+4 (R66; general knowledge of the spec's own, D27, log 12). -/
def fontBytes : List Byte :=
  [0xF0, 0x90, 0x90, 0x90, 0xF0] ++ [0x20, 0x60, 0x20, 0x20, 0x70] ++
  [0xF0, 0x10, 0xF0, 0x80, 0xF0] ++ [0xF0, 0x10, 0xF0, 0x10, 0xF0] ++
  [0x90, 0x90, 0xF0, 0x10, 0x10] ++ [0xF0, 0x80, 0xF0, 0x10, 0xF0] ++
  [0xF0, 0x80, 0xF0, 0x90, 0xF0] ++ [0xF0, 0x10, 0x20, 0x40, 0x40] ++
  [0xF0, 0x90, 0xF0, 0x90, 0xF0] ++ [0xF0, 0x90, 0xF0, 0x10, 0xF0] ++
  [0xF0, 0x90, 0xF0, 0x90, 0x90] ++ [0xE0, 0x90, 0xE0, 0x90, 0xE0] ++
  [0xF0, 0x80, 0x80, 0x80, 0xF0] ++ [0xE0, 0x90, 0x90, 0x90, 0xE0] ++
  [0xF0, 0x80, 0xF0, 0x80, 0xF0] ++ [0xF0, 0x80, 0xF0, 0x80, 0x80]

/-- What an unlisted address reads as: the reset contents, the font at 0x000..0x04F and 0x00 above (10_state.md R38,
20_memory.md R67). -/
def Memory.initial (a : Nat) : Byte := fontBytes.getD a 0x00

/-- The canonical form from address `lo` up: addresses strictly rising, inside the array, and no cell equal to what
an unlisted address reads as. -/
def Memory.wfFrom : Nat → Memory → Bool
  | _, [] => true
  | lo, (k, c) :: m => lo ≤ k && k < Config.memSize && c != Memory.initial k && Memory.wfFrom (k + 1) m

/-- The canonical form of memory. -/
def Memory.wf (m : Memory) : Bool := Memory.wfFrom 0 m

/-- The byte at an address (R62, without its range check). -/
def Memory.read : Memory → Nat → Byte
  | [], a => Memory.initial a
  | (k, c) :: m, a => if a < k then Memory.initial a else if a = k then c else Memory.read m a

/-- The list with the byte at `a` set to `b`, keeping the canonical form. -/
def Memory.put : Memory → Nat → Byte → Memory
  | [], a, b => if b = Memory.initial a then [] else [(a, b)]
  | (k, c) :: m, a, b =>
    if a < k then (if b = Memory.initial a then (k, c) :: m else (a, b) :: (k, c) :: m)
    else if a = k then (if b = Memory.initial a then m else (a, b) :: m)
    else (k, c) :: Memory.put m a b

/-- The store of one byte (R62). An address outside the array holds no cell, so nothing is stored there; an
instruction checks its addresses first and faults (60_exceptions.md R318), so no instruction comes here with one. -/
def Memory.write (m : Memory) (a : Nat) (b : Byte) : Memory :=
  if a < Config.memSize then Memory.put m a b else m

/-- MemRead(a, 1) (R62): the byte, or the out-of-range address. -/
def Memory.memRead (m : Memory) (a : Nat) : Except Nat Byte :=
  if 0xFFF < a then .error a else .ok (m.read a)

/-- MemRead(a, 2), used by instruction fetch only: big-endian, high byte first (R62, R63). -/
def Memory.memRead2 (m : Memory) (a : Nat) : Except Nat Word :=
  match m.memRead a with
  | .error e => .error e
  | .ok hi =>
    match m.memRead (a + 1) with
    | .error e => .error e
    | .ok lo => .ok (wordOfBytes hi lo)

/-- The bytes at a .. a + len - 1 (R65). -/
def Memory.readBytes (m : Memory) (a : Nat) : Nat → List Byte
  | 0 => []
  | len + 1 => m.read a :: m.readBytes (a + 1) len

/-- The stores of a run of bytes at a, a+1, ... in order (R65). -/
def Memory.writeBytes (m : Memory) (a : Nat) : List Byte → Memory
  | [] => m
  | b :: bs => (m.write a b).writeBytes (a + 1) bs

/-- The first address above 0xFFF among base .. base + len - 1, if there is one: the check an instruction makes of
every address it will use before it changes any state (R62; 45_index_memory.md R283 to R286; 43_display.md R223). -/
def firstOutside (base len : Nat) : Option Nat :=
  if len = 0 ∨ base + len - 1 ≤ 0xFFF then none else some (max base 0x1000)

end Sys2Proof.Machine
end

