-- ==== Sys2Proof/Machine/Ops.lean ====
section
/-! DEFINITION. The named operations on the state: one home for every register read and write (10_state.md), the
pre-advance and the skip (40_execution.md R124, 42_control_flow.md R198), the call stack (R27, R28), the key wait
(R32, R33), and TAKING A FAULT, the block's one exception entry (60_exceptions.md R310). There is no return from a
fault (R319); RESET alone leaves HALT (Machine/Ports.lean). -/

namespace Sys2Proof.Machine

/-- The read V[r] (R21). -/
def State.getV (s : State) (r : Reg) : Byte := s.v[r.toNat]'r.isLt

/-- V[r] of a register file written (R21). -/
def Regs.write (v : Regs) (r : Reg) (b : Byte) : Regs := v.set r.toNat b r.isLt

/-- The whole register file replaced. -/
def State.setRegs (s : State) (v : Regs) : State := { s with v := v }

/-- V[r] <- b (R21). -/
def State.setV (s : State) (r : Reg) (b : Byte) : State := { s with v := Regs.write s.v r b }

/-- PC <- a (R23). -/
def State.setPc (s : State) (a : Word) : State := { s with pc := a }

/-- I <- a (R25). -/
def State.setI (s : State) (a : Word) : State := { s with i := a }

/-- DT <- b (R29). -/
def State.setDt (s : State) (b : Byte) : State := { s with dt := b }

/-- ST <- b (R30). -/
def State.setSt (s : State) (b : Byte) : State := { s with st := b }

/-- Memory replaced (R37). -/
def State.setMem (s : State) (m : Memory) : State := { s with mem := m }

/-- The frame buffer replaced (R31). -/
def State.setFb (s : State) (fb : FrameBuffer) : State := { s with fb := fb }

/-- push(a): a becomes the new top, the last element (R28). -/
def State.push (s : State) (a : Word) : State := { s with stack := s.stack ++ [a] }

/-- The top of the stack, if there is one (R27). -/
def State.top (s : State) : Option Word := s.stack.getLast?

/-- The stack without its top (R28). -/
def State.dropTop (s : State) : State := { s with stack := s.stack.dropLast }

/-- The block enters the key wait for V[r] (44_keys_timers.md R254). -/
def State.startWait (s : State) (r : Reg) : State := { s with paused := true, waitReg := some r }

/-- The key wait ends (44_keys_timers.md R260). -/
def State.endWait (s : State) : State := { s with paused := false, waitReg := none }

/-- One byte was taken from the input RAND (41_alu.md R170; log 3). -/
def State.countDraw (s : State) : State := { s with draws := s.draws + 1 }

/-- The host changes the level at the input KEYS (10_state.md R47; log 2). -/
def State.setKeys (s : State) (k : Word) : State := { s with keys := k }

/-- PRE-ADVANCE: PC <- (pc0 + 2) mod 65536 (40_execution.md R124). -/
def State.advance (s : State) : State := s.setPc (s.pc + 2)

/-- The skip (42_control_flow.md R198): a taken one leaves PC at pc0 + 4, a not-taken one at pc0 + 2. -/
def State.skipIf (s : State) (taken : Bool) : State :=
  if taken then s.advance.setPc (s.advance.pc + 2) else s.advance

/-- TAKING A FAULT (60_exceptions.md R310, R318): no effect of the instruction is kept, PC keeps pc0, and `fault` gets
the record with the PC at fetch time. The control state becomes HALT. -/
def State.takeFault (s : State) (kind : FaultKind) (word : Option Word) (addr : Option Nat) : State :=
  { s with fault := some { kind := kind, word := word, pc := s.pc, addr := addr } }

/-- The bytes stored at `base`, `base`+1, ... (20_memory.md R65). -/
def State.store (s : State) (base : Nat) (bytes : List Byte) : State := s.setMem (s.mem.writeBytes base bytes)

/-- The registers V[k], V[k+1], ... loaded from the bytes, in order (45_index_memory.md R285). -/
def Regs.load (v : Regs) : Nat → List Byte → Regs
  | _, [] => v
  | k, b :: bs => (Regs.write v (BitVec.ofNat 4 k) b).load (k + 1) bs

end Sys2Proof.Machine
end

