-- ==== Sys2Proof/Machine/Operands.lean ====
section
/-! DEFINITION. Operands and results of the instructions: the zero-extensions (30_encoding.md R92), the key test
(44_keys_timers.md R250), the decimal digits (45_index_memory.md R283), the block of registers (R284), and the one
data addressing mode I + i with its range check (R286). Every operand is read from the state as it stood after FETCH
(40_execution.md R125). -/

namespace Sys2Proof.Machine

/-- zext_16(nnn) (30_encoding.md R92). -/
def zextAddr (nnn : Addr) : Word := nnn.setWidth 16

/-- A byte where it meets a 16-bit value (30_encoding.md R92). -/
def zextByte (b : Byte) : Word := b.setWidth 16

/-- Held(v) = (v <= 0xF) and KEYS[v] = 1 (44_keys_timers.md R250). -/
def held (keys : Word) (v : Byte) : Bool := v.toNat ≤ 0xF && keys.getLsbD v.toNat

/-- Hundreds, tens and ones of a byte (45_index_memory.md R283). -/
def bcdDigits (a : Byte) : List Byte :=
  [BitVec.ofNat 8 (a.toNat / 100), BitVec.ofNat 8 (a.toNat / 10 % 10), BitVec.ofNat 8 (a.toNat % 10)]

/-- V[0] .. V[x] in order (45_index_memory.md R284). -/
def State.regBlock (s : State) (x : Reg) : List Byte := s.v.toList.take (x.toNat + 1)

/-- The address of glyph a: FONT_BASE + 5 a, a not masked (45_index_memory.md R282). -/
def glyphAddress (a : Byte) : Word := BitVec.ofNat 16 (Config.fontBase + Config.glyphBytes * a.toNat)

/-- An instruction that uses the `len` addresses I, I+1, ...: AddressOutOfRange with the first address above 0xFFF and
no other change when one of them is outside the array, and the state `done` otherwise (45_index_memory.md R286,
60_exceptions.md R315, R318). The recorded word is the instruction's own (60_exceptions.md R311, log 5). -/
def State.withBlock (s : State) (ins : Instr) (len : Nat) (done : State) : Result :=
  match firstOutside s.i.toNat len with
  | some a => .next (s.takeFault .addressOutOfRange (some (encode ins)) (some a))
  | none => .next done

end Sys2Proof.Machine
end

