-- ==== Sys2Proof/Machine/Flags.lean ====
section
/-! DEFINITION. Every value that is written to VF as a flag (10_state.md R22, R35), and the write of a result with its
flag, the flag last (D10). -/

namespace Sys2Proof.Machine

/-- A condition as the byte 0x01 or 0x00. -/
def flagByte (c : Bool) : Byte := if c then 0x01 else 0x00

/-- ADD Vx, Vy: 1 when the mathematical sum exceeds 255 (41_alu.md R158). -/
def carryFlag (a b : Byte) : Byte := flagByte (255 < a.toNat + b.toNat)

/-- SUB and SUBN: 1 when the minuend is strictly greater than the subtrahend (41_alu.md R159, R161). -/
def greaterFlag (minuend subtrahend : Byte) : Byte := flagByte (subtrahend.toNat < minuend.toNat)

/-- SHR: the bit shifted out, 0x00 or 0x01 (41_alu.md R160). -/
def shrFlag (a : Byte) : Byte := a &&& 0x01

/-- SHL: the masked bit shifted out, 0x00 or 0x80, not normalized (41_alu.md R162, 90_conflicts.md C4). -/
def shlFlag (a : Byte) : Byte := a &&& 0x80

/-- DRW: 1 when a toggle turned a pixel off (43_display.md R223). -/
def collisionFlag (hit : Bool) : Byte := flagByte hit

/-- V[x] <- result, then VF <- flag (10_state.md R22: the flag is written last), PC at pc0 + 2 (41_alu.md R150). -/
def State.writeFlagged (s : State) (x : Reg) (result flag : Byte) : State :=
  (s.advance.setV x result).setV regF flag

/-- V[x] <- result, no flag, PC at pc0 + 2 (41_alu.md R150). -/
def State.writePlain (s : State) (x : Reg) (result : Byte) : State := s.advance.setV x result

end Sys2Proof.Machine
end

