-- ==== Sys2Proof/Machine/Alu.lean ====
section
/-! DEFINITION. Register moves, arithmetic, bitwise, shift and random instructions (41_alu.md). Each leaves PC at
pc0 + 2 and raises no fault (R150). -/

namespace Sys2Proof.Machine

/-- LD Vx, kk (R151). -/
def execLdVxKk (x : Reg) (kk : Byte) (s : State) : Result := .next (s.writePlain x kk)

/-- LD Vx, Vy (R152). -/
def execLdVxVy (x y : Reg) (s : State) : Result := .next (s.writePlain x (s.getV y))

/-- ADD Vx, kk (R153): no flag, VF is not written even on wrap (D14, C5). -/
def execAddVxKk (x : Reg) (kk : Byte) (s : State) : Result := .next (s.writePlain x (s.getV x + kk))

/-- OR Vx, Vy (R154): no flag (D15). -/
def execOrVxVy (x y : Reg) (s : State) : Result := .next (s.writePlain x (s.getV x ||| s.getV y))

/-- AND Vx, Vy (R155): no flag (D15). -/
def execAndVxVy (x y : Reg) (s : State) : Result := .next (s.writePlain x (s.getV x &&& s.getV y))

/-- XOR Vx, Vy (R156): no flag (D15). -/
def execXorVxVy (x y : Reg) (s : State) : Result := .next (s.writePlain x (s.getV x ^^^ s.getV y))

/-- ADD Vx, Vy (R158): VF = carry. -/
def execAddVxVy (x y : Reg) (s : State) : Result :=
  .next (s.writeFlagged x (s.getV x + s.getV y) (carryFlag (s.getV x) (s.getV y)))

/-- SUB Vx, Vy (R159): VF = 1 when V[x] > V[y] strictly. -/
def execSubVxVy (x y : Reg) (s : State) : Result :=
  .next (s.writeFlagged x (s.getV x - s.getV y) (greaterFlag (s.getV x) (s.getV y)))

/-- SHR Vx (R160): shifts V[x] in place; y is ignored (D11). -/
def execShr (x _y : Reg) (s : State) : Result := .next (s.writeFlagged x (s.getV x >>> 1) (shrFlag (s.getV x)))

/-- SUBN Vx, Vy (R161): VF = 1 when V[y] > V[x] strictly (D13). -/
def execSubnVxVy (x y : Reg) (s : State) : Result :=
  .next (s.writeFlagged x (s.getV y - s.getV x) (greaterFlag (s.getV y) (s.getV x)))

/-- SHL Vx (R162): shifts V[x] in place; y is ignored (D11). -/
def execShl (x _y : Reg) (s : State) : Result := .next (s.writeFlagged x (s.getV x <<< 1) (shlFlag (s.getV x)))

/-- RND Vx, kk with the byte `r` drawn from the input RAND (R170). -/
def rndWith (r : Byte) (x : Reg) (kk : Byte) (s : State) : State := s.countDraw.writePlain x (r &&& kk)

/-- RND Vx, kk (R170): the byte is the free value of this draw (log 3). -/
def execRnd (x : Reg) (kk : Byte) (s : State) : Result := .next (rndWith (Config.rand s.draws) x kk s)

end Sys2Proof.Machine
end

