-- ==== Sys2Proof/Machine/Control.lean ====
section
/-! DEFINITION. Call, return, jumps and conditional skips (42_control_flow.md). -/

namespace Sys2Proof.Machine

/-- RET (R190): PC <- pop(); StackUnderflow with the word 0x00EE on the empty stack. -/
def execRet (s : State) : Result :=
  match s.top with
  | some t => .next (s.dropTop.setPc t)
  | none => .next (s.takeFault .stackUnderflow (some (encode .ret)) none)

/-- JP nnn (R191). -/
def execJp (nnn : Addr) (s : State) : Result := .next (s.advance.setPc (zextAddr nnn))

/-- CALL nnn (R192): pushes the pre-advanced PC; StackOverflow when 16 return addresses are already held (log 8). -/
def execCall (nnn : Addr) (s : State) : Result :=
  if s.stack.length < Config.stackDepth then .next ((s.advance.push s.advance.pc).setPc (zextAddr nnn))
  else .next (s.takeFault .stackOverflow (some (encode (.call nnn))) none)

/-- SE Vx, kk (R193, R198). -/
def execSeVxKk (x : Reg) (kk : Byte) (s : State) : Result := .next (s.skipIf (s.getV x == kk))

/-- SNE Vx, kk (R194, R198). -/
def execSneVxKk (x : Reg) (kk : Byte) (s : State) : Result := .next (s.skipIf (s.getV x != kk))

/-- SE Vx, Vy (R195, R198): n is not examined (30_encoding.md R98). -/
def execSeVxVy (x y : Reg) (_n : Nibble) (s : State) : Result := .next (s.skipIf (s.getV x == s.getV y))

/-- SNE Vx, Vy (R196, R198): n is not examined (30_encoding.md R98). -/
def execSneVxVy (x y : Reg) (_n : Nibble) (s : State) : Result := .next (s.skipIf (s.getV x != s.getV y))

/-- JP V0, nnn (R197): the offset register is always V0 (D20). -/
def execJpV0 (nnn : Addr) (s : State) : Result := .next (s.advance.setPc (zextAddr nnn + zextByte (s.getV reg0)))

end Sys2Proof.Machine
end

