-- ==== Sys2Proof/Machine/Display.lean ====
section
/-! DEFINITION. The display instructions (43_display.md). -/

namespace Sys2Proof.Machine

/-- CLS (R221): every cell off, VF not written. -/
def execCls (s : State) : Result := .next (s.advance.setFb FrameBuffer.clear)

/-- The state after a draw whose n sprite bytes are inside the array: coordinates and bytes latched first, the rows
blitted by XOR with wrap, VF the collision bit (R223 to R226). -/
def State.draw (s : State) (x y : Reg) (n : Nibble) : State :=
  let d := drawRows (s.getV x).toNat (s.getV y).toNat (s.mem.readBytes s.i.toNat n.toNat) s.fb
  (s.advance.setFb d.1).setV regF (collisionFlag d.2)

/-- DRW Vx, Vy, n (R223): AddressOutOfRange when n >= 1 and I + n - 1 > 0xFFF, before any change. -/
def execDrw (x y : Reg) (n : Nibble) (s : State) : Result := s.withBlock (.drw x y n) n.toNat (s.draw x y n)

end Sys2Proof.Machine
end

