-- ==== Sys2Proof/Machine/IndexMemory.lean ====
section
/-! DEFINITION. The address-register and memory instructions (45_index_memory.md). None changes I as a side effect of
an access (R286, D16). -/

namespace Sys2Proof.Machine

/-- LD I, nnn (R280). -/
def execLdI (nnn : Addr) (s : State) : Result := .next (s.advance.setI (zextAddr nnn))

/-- ADD I, Vx (R281): mod 65536, VF not written (D17). -/
def execAddIVx (x : Reg) (s : State) : Result := .next (s.advance.setI (s.i + zextByte (s.getV x)))

/-- LD F, Vx (R282). -/
def execLdFVx (x : Reg) (s : State) : Result := .next (s.advance.setI (glyphAddress (s.getV x)))

/-- LD B, Vx (R283). -/
def execLdBVx (x : Reg) (s : State) : Result :=
  s.withBlock (.ldBVx x) 3 (s.advance.store s.i.toNat (bcdDigits (s.getV x)))

/-- LD [I], Vx (R284). -/
def execLdMemVx (x : Reg) (s : State) : Result :=
  s.withBlock (.ldMemVx x) (x.toNat + 1) (s.advance.store s.i.toNat (s.regBlock x))

/-- LD Vx, [I] (R285). -/
def execLdVxMem (x : Reg) (s : State) : Result :=
  s.withBlock (.ldVxMem x) (x.toNat + 1)
    (s.advance.setRegs (s.v.load 0 (s.mem.readBytes s.i.toNat (x.toNat + 1))))

end Sys2Proof.Machine
end

