-- ==== Sys2Proof/Machine/KeysTimers.lean ====
section
/-! DEFINITION. The key, key-wait and timer instructions (44_keys_timers.md); the inputs TICK and KEY_PRESS are in
Machine/Ports.lean. -/

namespace Sys2Proof.Machine

/-- SKP Vx (R251): a key number above 0xF never skips (D19). -/
def execSkp (x : Reg) (s : State) : Result := .next (s.skipIf (held s.keys (s.getV x)))

/-- SKNP Vx (R252): a key number above 0xF always skips (D19). -/
def execSknp (x : Reg) (s : State) : Result := .next (s.skipIf (!held s.keys (s.getV x)))

/-- LD Vx, DT (R253). -/
def execLdVxDt (x : Reg) (s : State) : Result := .next (s.writePlain x s.dt)

/-- LD Vx, K (R254): the block waits; V[x] is written later, by KEY_PRESS. -/
def execLdVxK (x : Reg) (s : State) : Result := .next (s.advance.startWait x)

/-- LD DT, Vx (R255). -/
def execLdDtVx (x : Reg) (s : State) : Result := .next (s.advance.setDt (s.getV x))

/-- LD ST, Vx (R256). -/
def execLdStVx (x : Reg) (s : State) : Result := .next (s.advance.setSt (s.getV x))

end Sys2Proof.Machine
end

