-- ==== Sys2Proof/Machine/Fetch.lean ====
section
/-! DEFINITION. What a STEP does before EXECUTE (40_execution.md R120 to R123, R129): hold in HALT and WAIT_KEY, FETCH,
DECODE, and their faults; and the store of an instruction where the next FETCH reads it. -/

namespace Sys2Proof.Machine

/-- The three control states (R121). -/
inductive ControlState where
  | run
  | waitKey
  | halt
  deriving DecidableEq, Repr

/-- The control state, a function of the state (R121). -/
def State.control (s : State) : ControlState :=
  if s.fault.isSome then .halt else if s.paused then .waitKey else .run

/-- FETCH and DECODE of the instruction at PC: the instruction, or the state after the fault that the phase raises
(R122, R123; 60_exceptions.md R317). -/
def State.fetchDecode (s : State) : Except State Instr :=
  match s.mem.memRead2 s.pc.toNat with
  | .error a => .error (s.takeFault .addressOutOfRange none (some a))
  | .ok w =>
    match decode w with
    | .error _ => .error (s.takeFault .unknownOpcode (some w) none)
    | .ok i => .ok i

/-- A STEP up to EXECUTE: the instruction to execute, or the state in which the step ends without one. In HALT and in
WAIT_KEY it ends in the state it began in (R129; 60_exceptions.md R316). -/
def State.stepFront (s : State) : Except State Instr :=
  match s.control with
  | .run => s.fetchDecode
  | .waitKey => .error s
  | .halt => .error s

/-- The bytes of the word `w` (of `nbits` bits, the bits above them 0) stored at PC, high byte first
(20_memory.md R63). -/
def State.placeAtPc (s : State) (nbits w : Nat) : State :=
  let word : Word := BitVec.ofNat 16 (w % 2 ^ nbits)
  s.store s.pc.toNat [highByte word, lowByte word]

end Sys2Proof.Machine
end

