-- ==== Sys2Proof/Machine/Step.lean ====
section
/-! DEFINITION. One STEP (40_execution.md R120). -/

namespace Sys2Proof.Machine

/-- The input STEP, one atomic transition (R120, R127): FETCH, DECODE and EXECUTE of one instruction in RUN, no change
in WAIT_KEY and HALT. A fault is a next state (60_exceptions.md R310). -/
def step (s : State) : Host.Outcome State Fault Refusal :=
  match s.stepFront with
  | .ok i => exec i s
  | .error t => .next t

/-- `s` with the instruction of bits `w` stored where `step` fetches next: at PC, both bytes inside the array when
PC <= 0xFFE. It stands for the host's LOAD (log 10). -/
def State.withFetchWord (s : State) (nbits w : Nat) : State := s.placeAtPc nbits w

end Sys2Proof.Machine
end

