-- ==== Sys2Proof/Machine/Ports.lean ====
section
/-! DEFINITION. The other input ports of the block (10_state.md R47): RESET, LOAD, TICK, KEY_PRESS and the level KEYS,
each one atomic transition between steps (60_exceptions.md R334), and the output ports (R48). -/

namespace Sys2Proof.Machine

/-- RESET (70_reset_and_hazards.md R340): every piece of the block's state at its value of 10_state.md R38, whatever
the state before. The inputs are not state of the block (R40): the level KEYS stays as the host holds it, and the
count of bytes drawn from RAND goes on (log 15). -/
def State.resetBlock (s : State) : State := { State.reset with keys := s.keys, draws := s.draws }

/-- What the host is told of a LOAD (70_reset_and_hazards.md R342, 60_exceptions.md R320). -/
inductive LoadReport where
  /-- The image was placed. -/
  | loaded
  /-- Code 5, ProgramTooLarge: longer than 3584 bytes, no change; the block is not halted by it. -/
  | programTooLarge
  /-- The block is halted: refused, no change. -/
  | refusedHalted
  deriving DecidableEq, Repr

/-- LOAD(bytes) (70_reset_and_hazards.md R342): byte k to address 0x200 + k, nothing else written. -/
def State.load (s : State) (bytes : List Byte) : LoadReport × State :=
  if s.fault.isSome then (.refusedHalted, s)
  else if imageFits bytes then (.loaded, s.store Config.programBase bytes)
  else (.programTooLarge, s)

/-- A timer after one accepted tick: one less, never below 0 (44_keys_timers.md R262). -/
def tickTimer (t : Byte) : Byte := if t = 0 then 0 else t - 1

/-- TICK (44_keys_timers.md R262): both timers step toward zero in RUN; nothing in WAIT_KEY (90_conflicts.md C2) and
in HALT (60_exceptions.md R316). -/
def State.tick (s : State) : State :=
  match s.control with
  | .run => (s.setDt (tickTimer s.dt)).setSt (tickTimer s.st)
  | .waitKey => s
  | .halt => s

/-- KEY_PRESS(k) (44_keys_timers.md R260, R261): in WAIT_KEY the key code goes to the waiting register and the block
runs again; in RUN and HALT nothing. A paused block with no waiting register is no state a run reaches (10_state.md
R33), and nothing changes in it (log 9). -/
def State.keyPress (s : State) (k : Nibble) : State :=
  match s.control, s.waitReg with
  | .waitKey, some r => (s.setV r (k.setWidth 8)).endWait
  | _, _ => s

/-- The inputs of R47 as the host issues them; `setKeys` is a change of the level KEYS. RAND is no strobe: Cxkk
samples it (41_alu.md R170). -/
inductive Input where
  | reset
  | load (bytes : List Byte)
  | step
  | tick
  | keyPress (k : Nibble)
  | setKeys (keys : Word)
  deriving DecidableEq, Repr

/-- One input, one atomic transition of the whole state (60_exceptions.md R334). -/
def transition (inp : Input) (s : State) : Result :=
  match inp with
  | .reset => .next s.resetBlock
  | .load bytes => .next (s.load bytes).2
  | .step => step s
  | .tick => .next s.tick
  | .keyPress k => .next (s.keyPress k)
  | .setKeys keys => .next (s.setKeys keys)

/-- Inputs one at a time in the order the host issues them (60_exceptions.md R334). -/
def run : List Input → State → Result
  | [], s => .next s
  | inp :: rest, s =>
    match transition inp s with
    | .next t => run rest t
    | .fault r => .fault r
    | .refused r => .refused r

/-- One frame of the host (44_keys_timers.md R264): `steps` STEPs (`STEPS_PER_FRAME`, which the host chooses, D30),
then one TICK. -/
def frame (steps : Nat) : List Input := List.replicate steps .step ++ [.tick]

/-- The boot order up to the first frame (70_reset_and_hazards.md R343). -/
def boot (bytes : List Byte) : List Input := [.reset, .load bytes]

/-- Output SOUND: ST != 0 (R48, 44_keys_timers.md R263). -/
def State.soundOut (s : State) : Bool := s.st != 0

/-- Output PAUSED (R48). -/
def State.pausedOut (s : State) : Bool := s.paused

/-- Output FAULT: the record, none while running (R48). -/
def State.faultOut (s : State) : Option FaultRecord := s.fault

/-- Output FB: the cell at column x and row y (R48). -/
def State.fbOut (s : State) (x : Fin 64) (y : Fin 32) : Bool := s.fb.pixel x.val y.val

/-- The numeric code of a fault kind (60_exceptions.md R311, D5). -/
def FaultKind.code : FaultKind → Nat
  | .unknownOpcode => 1
  | .stackUnderflow => 2
  | .stackOverflow => 3
  | .addressOutOfRange => 4

/-- The numeric code LOAD reports (60_exceptions.md R311): 5 for ProgramTooLarge; R311 gives no code to the others. -/
def LoadReport.code : LoadReport → Option Nat
  | .loaded => none
  | .programTooLarge => some 5
  | .refusedHalted => none

end Sys2Proof.Machine
end

