-- ==== Sys2Proof/Safety.lean ====
section
/-! DEFINITION. The terms claims use: the invariant of a reachable state, the parts of a state and what it is for two
states to agree outside some parts, the words and cells the rules speak of. -/

namespace Sys2Proof.Machine

/-- Memory is in its canonical form. -/
abbrev State.MemOk (s : State) : Prop := s.mem.wf = true

/-- At most 16 return addresses (10_state.md R27, R36), each a pc0 + 2 of an executed CALL, so at most 0x1000
(42_control_flow.md R190). -/
abbrev State.StackOk (s : State) : Prop := s.stack.length ≤ 16 ∧ ∀ a ∈ s.stack, a.toNat ≤ 0x1000

/-- PC is at most 0x10FE, the largest value an instruction can write (10_state.md R24). -/
abbrev State.PcOk (s : State) : Prop := s.pc.toNat ≤ 0x10FE

/-- paused = 1 exactly when waitReg is not none, while the block is not halted (10_state.md R33), and a halted block is
not paused: WAIT_KEY cannot go to HALT (40_execution.md R121). -/
abbrev State.WaitOk (s : State) : Prop :=
  (s.fault = none → (s.paused = true ↔ s.waitReg ≠ none)) ∧ (s.fault ≠ none → s.paused = false)

/-- A fault record is a row of the table of 60_exceptions.md R311. -/
def FaultRecord.Ok (f : FaultRecord) : Prop :=
  match f.kind with
  | .unknownOpcode => (∃ w, f.word = some w ∧ legalWord w = false) ∧ f.addr = none
  | .stackUnderflow => f.word = some 0x00EE#16 ∧ f.addr = none
  | .stackOverflow => (∃ nnn : Addr, f.word = some (0x2#4 ++ nnn)) ∧ f.addr = none
  | .addressOutOfRange => ∃ a, f.addr = some a ∧ 0x1000 ≤ a ∧ (f.word = none → 0xFFE < f.pc.toNat)

/-- The record, if there is one, is a row of R311 and names the PC of the halted block, which keeps pc0 (R318). -/
abbrev State.FaultOk (s : State) : Prop := ∀ f, s.fault = some f → f.Ok ∧ f.pc = s.pc

/-- The invariant of every state a run reaches. -/
def State.Inv (s : State) : Prop := s.MemOk ∧ s.StackOk ∧ s.PcOk ∧ s.WaitOk ∧ s.FaultOk

/-- A state whose next STEP executes an instruction or faults: control state RUN (40_execution.md R121). -/
abbrev State.Running (s : State) : Prop := s.fault = none ∧ s.paused = false

/-- The parts of a state: what an instruction can change, and the model's own two fields. -/
inductive Part where
  | reg (r : Reg)
  | addressReg
  | pc
  | stack
  | delayTimer
  | soundTimer
  | byte (a : Nat)
  | pixel (x y : Nat)
  | pauseState
  | fault
  | keys
  | draws
  deriving DecidableEq, Repr

/-- The value of one part is the same in both states; memory is compared through the read of one byte. -/
def SamePart (s t : State) : Part → Prop
  | .reg r => t.getV r = s.getV r
  | .addressReg => t.i = s.i
  | .pc => t.pc = s.pc
  | .stack => t.stack = s.stack
  | .delayTimer => t.dt = s.dt
  | .soundTimer => t.st = s.st
  | .byte a => t.mem.read a = s.mem.read a
  | .pixel x y => t.fb.pixel x y = s.fb.pixel x y
  | .pauseState => t.paused = s.paused ∧ t.waitReg = s.waitReg
  | .fault => t.fault = s.fault
  | .keys => t.keys = s.keys
  | .draws => t.draws = s.draws

/-- FRAME: every part outside `changed` is the same in `t` as in `s`. -/
def SameOutside (changed : Part → Prop) (s t : State) : Prop := ∀ p, ¬ changed p → SamePart s t p

/-- The word a FETCH at PC reads when both bytes are inside the array: high byte at PC, low byte at PC + 1
(40_execution.md R122). -/
def State.fetchWord (s : State) : Word := s.mem.read s.pc.toNat ++ s.mem.read (s.pc.toNat + 1)

/-- The state halted by a fault: the record names the kind, the word, the PC at fetch time and the address, and every
other part is as in `s` (60_exceptions.md R310, R318). -/
def HaltedBy (kind : FaultKind) (word : Option Word) (addr : Option Nat) (s t : State) : Prop :=
  t.fault = some { kind := kind, word := word, pc := s.pc, addr := addr } ∧ SameOutside (· = .fault) s t

/-- The next STEP faults at FETCH, with the first address above 0xFFF (40_execution.md R122). -/
def NextFetchFaults (t : State) : Prop :=
  ∃ u, step t = .next u ∧ HaltedBy .addressOutOfRange none (some (max t.pc.toNat 0x1000)) t u

/-- The instruction uses an address above 0xFFF in this state (60_exceptions.md R315). -/
def UsesOutside (s : State) (i : Instr) : Prop :=
  (∃ x y n, i = .drw x y n ∧ 1 ≤ n.toNat ∧ 0xFFF < s.i.toNat + n.toNat - 1) ∨
  (∃ x, i = .ldBVx x ∧ 0xFFF < s.i.toNat + 2) ∨
  (∃ x : Reg, (i = .ldMemVx x ∨ i = .ldVxMem x) ∧ 0xFFF < s.i.toNat + x.toNat)

/-- The byte at I + r, bit 7 - c: the sprite's pixel in column c of row r (43_display.md R226). -/
def spriteBit (s : State) (r c : Nat) : Bool := (s.mem.read (s.i.toNat + r)).getLsbD (7 - c)

/-- A set bit of the n-row sprite at (xs, ys) lands on the cell (cx, cy), with wrap (43_display.md R225). -/
def SpriteCovers (s : State) (xs ys n cx cy : Nat) : Prop :=
  ∃ r c, r < n ∧ c < 8 ∧ spriteBit s r c = true ∧ (xs + c) % 64 = cx ∧ (ys + r) % 32 = cy

end Sys2Proof.Machine
end

