-- ==== Sys2Proof/Certificates/Slice0/Obligations.lean ====
section
/-! DEFINITION. The statements about the machine, from the numbered rules of spec/. An instruction's statement gives
its encoding, the next state `exec` answers, and its frame (`SameOutside`: every part not named is unchanged, memory
read byte by byte). -/

open Sys2Proof Sys2Proof.Machine

/-! ## Reset and the invariant -/

/-- R38: the values after RESET, the 80 font bytes of R66 among them. -/
def Obligations.ResetStateValues : Prop :=
  (List.range 80).map State.reset.mem.read =
    [0xF0, 0x90, 0x90, 0x90, 0xF0] ++ [0x20, 0x60, 0x20, 0x20, 0x70] ++ [0xF0, 0x10, 0xF0, 0x80, 0xF0] ++
    [0xF0, 0x10, 0xF0, 0x10, 0xF0] ++ [0x90, 0x90, 0xF0, 0x10, 0x10] ++ [0xF0, 0x80, 0xF0, 0x10, 0xF0] ++
    [0xF0, 0x80, 0xF0, 0x90, 0xF0] ++ [0xF0, 0x10, 0x20, 0x40, 0x40] ++ [0xF0, 0x90, 0xF0, 0x90, 0xF0] ++
    [0xF0, 0x90, 0xF0, 0x10, 0xF0] ++ [0xF0, 0x90, 0xF0, 0x90, 0x90] ++ [0xE0, 0x90, 0xE0, 0x90, 0xE0] ++
    [0xF0, 0x80, 0x80, 0x80, 0xF0] ++ [0xE0, 0x90, 0x90, 0x90, 0xE0] ++ [0xF0, 0x80, 0xF0, 0x80, 0xF0] ++
    [0xF0, 0x80, 0xF0, 0x80, 0x80] ∧
  (∀ a, 0x050 ≤ a → a ≤ 0xFFF → State.reset.mem.read a = 0x00) ∧
  (∀ r, State.reset.getV r = 0x00) ∧ State.reset.pc = 0x200 ∧ State.reset.i = 0x0000 ∧ State.reset.stack = [] ∧
  State.reset.dt = 0x00 ∧ State.reset.st = 0x00 ∧ (∀ x y, x < 64 → y < 32 → State.reset.fb.pixel x y = false) ∧
  State.reset.paused = false ∧ State.reset.waitReg = none ∧ State.reset.fault = none

/-- R340: RESET gives every piece of the block's state its reset value whatever the state before, HALT and WAIT_KEY
included; the block is in RUN after it. Nothing is said of the model's own `keys` and `draws`. -/
def Obligations.ResetFromAnyState : Prop :=
  ∀ s : State, ∃ t, transition .reset s = .next t ∧
    SameOutside (fun p => p = .keys ∨ p = .draws) State.reset t ∧ t.control = .run

/-- The invariant holds at reset. -/
def Obligations.InvariantAtReset : Prop := State.reset.Inv

/-- Every STEP keeps the invariant: memory canonical, at most 16 return addresses, PC at most 0x10FE, paused exactly when
a register waits, the fault record a row of R311 with the PC of the halted block. -/
def Obligations.StepKeepsInvariant : Prop :=
  ∀ s t : State, s.Inv → step s = .next t → t.Inv

/-- The host's other inputs keep the invariant too: RESET, LOAD of any bytes, TICK, KEY_PRESS, a change of KEYS. -/
def Obligations.HostInputsKeepInvariant : Prop :=
  ∀ (inp : Input) (s t : State), inp ≠ .step → s.Inv → transition inp s = .next t → t.Inv

/-- No input stops the machine outside the spec's own states: every transition answers a next state. -/
def Obligations.EveryInputAnswersNext : Prop :=
  ∀ (inp : Input) (s : State), ∃ t, transition inp s = .next t

/-! ## Encoding -/

/-- Decoding the word, or the bytes, of any instruction gives it back with every operand at every value of its field,
whatever bytes follow. -/
def Obligations.DecodeOfEncode : Prop :=
  ∀ (i : Instr) (rest : List Byte), decode (encode i) = .ok i ∧ decodeBytes (encodeBytes i ++ rest) = .ok (i, rest)

/-- An instruction gives back the word it was decoded from (R90, R99). That this holds of the fields no row examines too
(n of 5xyn and 9xyn, y of 8xy6 and 8xyE) rests on the model's keeping them as operands (DESIGN CHOICE, log 6). -/
def Obligations.EncodeOfDecode : Prop :=
  ∀ (w : Word) (i : Instr), decode w = .ok i → encode i = w

/-- R99: a word decodes exactly when it selects a row of the opcode map, and then to an instruction of that row; the rows
do not overlap. -/
def Obligations.DecodeFollowsOpcodeMap : Prop :=
  (∀ w, (∃ i, decode w = .ok i) ↔ legalWord w = true) ∧
  (∀ w i, decode w = .ok i → i.row ∈ opcodeMap ∧ i.row.selects w = true) ∧
  (∀ w, ∀ r ∈ opcodeMap, ∀ q ∈ opcodeMap, r.selects w = true → q.selects w = true → r = q)

/-- R100 with R94 to R97: the words that raise UnknownOpcode, class by class; each is rejected under its own name. -/
def Obligations.IllegalWordsByClass : Prop :=
  ∀ w : Word, decode w = .error (.unknownOpcode w) ↔
    (w.toNat / 4096 = 0x0 ∧ w ≠ 0x00E0 ∧ w ≠ 0x00EE) ∨
    (w.toNat / 4096 = 0x8 ∧ w.toNat % 16 ∈ [0x8, 0x9, 0xA, 0xB, 0xC, 0xD, 0xF]) ∨
    (w.toNat / 4096 = 0xE ∧ w.toNat % 256 ∉ [0x9E, 0xA1]) ∨
    (w.toNat / 4096 = 0xF ∧ w.toNat % 256 ∉ [0x07, 0x0A, 0x15, 0x18, 0x1E, 0x29, 0x33, 0x55, 0x65])

/-- Words the source itself shows: 0x600A, 0x8014, 0x00E0, 0x00EE, 0xFFFF (95_test_vectors.md S6 to S8). -/
def Obligations.SourceWordsDecode : Prop :=
  decode 0x600A = .ok (.ldVxKk 0 0x0A) ∧ decode 0x8014 = .ok (.addVxVy 0 1) ∧ decode 0x00E0 = .ok .cls ∧
  decode 0x00EE = .ok .ret ∧ decode 0xFFFF = .error (.unknownOpcode 0xFFFF)

/-! ## A step -/

/-- R120 to R124: in RUN, with both bytes at PC inside the array and a word that decodes, a STEP is the instruction's
EXECUTE on the state itself; `exec` makes the pre-advance. -/
def Obligations.StepRunsDecoded : Prop :=
  ∀ (s : State) (i : Instr), s.Running → s.pc.toNat ≤ 0xFFE → decode s.fetchWord = .ok i → step s = exec i s

/-- R129: STEP in WAIT_KEY changes nothing. -/
def Obligations.StepWhileWaiting : Prop :=
  ∀ s : State, s.fault = none → s.paused = true → step s = .next s

/-- R316: HALT is frozen for STEP, TICK and KEY_PRESS, LOAD is refused, SOUND keeps reflecting ST, and only RESET leaves
it. -/
def Obligations.HaltIsFrozen : Prop :=
  ∀ s : State, s.fault ≠ none →
    step s = .next s ∧ s.tick = s ∧ (∀ k, s.keyPress k = s) ∧ (∀ bytes, s.load bytes = (.refusedHalted, s)) ∧
    (s.soundOut = true ↔ s.st ≠ 0) ∧
    (∀ inp t, transition inp s = .next t → (t.control ≠ .halt ↔ inp = .reset))

/-- R122: FETCH reads the word high byte first when PC <= 0xFFE, and otherwise the step raises AddressOutOfRange with no
word and the first address above 0xFFF. -/
def Obligations.FetchWordOrFault : Prop :=
  ∀ s : State,
    (s.pc.toNat ≤ 0xFFE →
      s.mem.memRead2 s.pc.toNat = .ok (s.mem.read s.pc.toNat ++ s.mem.read (s.pc.toNat + 1))) ∧
    (s.Running → 0xFFE < s.pc.toNat → ∃ t, step s = .next t ∧
      HaltedBy .addressOutOfRange none (some (if s.pc.toNat = 0xFFF then 0x1000 else s.pc.toNat)) s t)

/-- R314: a word of no row of the opcode map raises UnknownOpcode with the word and the PC at fetch time. -/
def Obligations.UnknownOpcodeHalts : Prop :=
  ∀ s : State, s.Running → s.pc.toNat ≤ 0xFFE → legalWord s.fetchWord = false →
    ∃ t, step s = .next t ∧ HaltedBy .unknownOpcode (some s.fetchWord) none s t

/-- R318: a faulting STEP changes nothing but `fault`, and the record names the PC the block keeps. -/
def Obligations.FaultsAreAllOrNothing : Prop :=
  ∀ s t : State, s.fault = none → step s = .next t → t.fault ≠ none →
    SameOutside (· = .fault) s t ∧ t.mem = s.mem ∧ ∀ f, t.fault = some f → f.pc = s.pc

/-- R312 to R315, R317: a STEP in RUN ends in each kind of fault exactly on its condition. R192 and R313 raise StackOverflow
with exactly 16 entries; that the clause also holds above 16, where no run gets (`State.StackOk`), is the model's choice
(DESIGN CHOICE, log 8). -/
def Obligations.FaultsExactlyWhen : Prop :=
  ∀ s t : State, s.Running → step s = .next t →
    ((t.fault.map (·.kind) = some .unknownOpcode) ↔ s.pc.toNat ≤ 0xFFE ∧ legalWord s.fetchWord = false) ∧
    ((t.fault.map (·.kind) = some .stackUnderflow) ↔
      s.pc.toNat ≤ 0xFFE ∧ decode s.fetchWord = .ok .ret ∧ s.stack = []) ∧
    ((t.fault.map (·.kind) = some .stackOverflow) ↔
      s.pc.toNat ≤ 0xFFE ∧ (∃ nnn, decode s.fetchWord = .ok (.call nnn)) ∧ 16 ≤ s.stack.length) ∧
    ((t.fault.map (·.kind) = some .addressOutOfRange) ↔
      0xFFE < s.pc.toNat ∨ ∃ i, decode s.fetchWord = .ok i ∧ UsesOutside s i)

/-- R121: the transitions between RUN, WAIT_KEY and HALT. -/
def Obligations.ControlStateTransitions : Prop :=
  (∀ s t : State, s.control = .run → step s = .next t → t.control = .waitKey →
    ∃ x, decode s.fetchWord = .ok (.ldVxK x)) ∧
  (∀ (s t : State) (inp : Input), s.control = .run → transition inp s = .next t → t.control ≠ .run → inp = .step) ∧
  (∀ (s t : State) (inp : Input), s.control = .waitKey → transition inp s = .next t → t.control ≠ .halt) ∧
  (∀ (s t : State) (inp : Input), s.control = .waitKey → transition inp s = .next t → t.control = .run →
    inp = .reset ∨ ∃ k, inp = .keyPress k) ∧
  (∀ (s : State) (k : Nibble) (r : Reg), s.control = .waitKey → s.waitReg = some r → (s.keyPress k).control = .run)

/-! ## Display -/

/-- R221. -/
def Obligations.ClearScreen : Prop :=
  ∀ s : State, decode 0x00E0 = .ok .cls ∧
    ∃ t, exec .cls s = .next t ∧ (∀ x y, x < 64 → y < 32 → t.fb.pixel x y = false) ∧
      t.pc.toNat = (s.pc.toNat + 2) % 65536 ∧ SameOutside (fun p => p = .pc ∨ ∃ x y, p = .pixel x y) s t

/-- R223: with the sprite bytes inside the array (or n = 0), each cell is flipped exactly when a set sprite bit lands on
it, with wrap, and VF is 1 exactly when such a cell was on; coordinates are those before VF is written. A sprite byte
above 0xFFF faults with the first such address and no other change. -/
def Obligations.DrawSprite : Prop :=
  ∀ (x y : Reg) (n : Nibble) (s : State), decode (0xD#4 ++ x ++ y ++ n) = .ok (.drw x y n) ∧
    (n.toNat = 0 ∨ s.i.toNat + n.toNat - 1 ≤ 0xFFF →
      ∃ t, exec (.drw x y n) s = .next t ∧
        (∀ cx cy, cx < 64 → cy < 32 →
          (t.fb.pixel cx cy = true ↔
            ¬ (s.fb.pixel cx cy = true ↔ SpriteCovers s (s.getV x).toNat (s.getV y).toNat n.toNat cx cy))) ∧
        ((∃ cx cy, SpriteCovers s (s.getV x).toNat (s.getV y).toNat n.toNat cx cy ∧ s.fb.pixel cx cy = true) →
          t.getV regF = 0x01) ∧
        ((¬ ∃ cx cy, SpriteCovers s (s.getV x).toNat (s.getV y).toNat n.toNat cx cy ∧ s.fb.pixel cx cy = true) →
          t.getV regF = 0x00) ∧
        t.pc.toNat = (s.pc.toNat + 2) % 65536 ∧
        SameOutside (fun p => p = .pc ∨ p = .reg regF ∨ ∃ a b, p = .pixel a b) s t) ∧
    (1 ≤ n.toNat → 0xFFF < s.i.toNat + n.toNat - 1 →
      ∃ t, exec (.drw x y n) s = .next t ∧
        HaltedBy .addressOutOfRange (some (0xD#4 ++ x ++ y ++ n)) (some (max s.i.toNat 0x1000)) s t)

/-- R227: the same sprite at the same place twice restores the frame buffer, and the second draw reports a collision
whenever the first one set a pixel. The second draw may name other registers that hold the same coordinates. -/
def Obligations.DrawTwiceRestores : Prop :=
  ∀ (x y x' y' : Reg) (n : Nibble) (s t : State), n.toNat = 0 ∨ s.i.toNat + n.toNat - 1 ≤ 0xFFF →
    exec (.drw x y n) s = .next t → t.getV x' = s.getV x → t.getV y' = s.getV y →
    ∃ u, exec (.drw x' y' n) t = .next u ∧
      (∀ cx cy, cx < 64 → cy < 32 → u.fb.pixel cx cy = s.fb.pixel cx cy) ∧
      ((∃ cx cy, cx < 64 ∧ cy < 32 ∧ s.fb.pixel cx cy = false ∧ t.fb.pixel cx cy = true) → u.getV regF = 0x01)

/-! ## Control flow -/

/-- R190: RET pops PC, as it is, so a popped 0x1000 makes the next fetch fault; on the empty stack it faults with
StackUnderflow and no other change. -/
def Obligations.ReturnPopsPc : Prop :=
  decode 0x00EE = .ok .ret ∧ ∀ s : State,
    (∀ rest a, s.stack = rest ++ [a] →
      ∃ t, exec .ret s = .next t ∧ t.pc = a ∧ t.stack = rest ∧ SameOutside (· ∈ [.pc, .stack]) s t ∧
        (s.Running → 0xFFE < a.toNat → NextFetchFaults t)) ∧
    (s.stack = [] → ∃ t, exec .ret s = .next t ∧ HaltedBy .stackUnderflow (some 0x00EE) none s t)

/-- R192: CALL pushes pc0 + 2 and jumps; with 16 entries it faults with StackOverflow and no other change. -/
def Obligations.CallPushesReturn : Prop :=
  ∀ (nnn : Addr) (s : State), decode (0x2#4 ++ nnn) = .ok (.call nnn) ∧
    (s.stack.length < 16 →
      ∃ t a, exec (.call nnn) s = .next t ∧ t.stack = s.stack ++ [a] ∧ a.toNat = (s.pc.toNat + 2) % 65536 ∧
        t.pc.toNat = nnn.toNat ∧ SameOutside (· ∈ [.pc, .stack]) s t) ∧
    (s.stack.length = 16 → ∃ t, exec (.call nnn) s = .next t ∧ HaltedBy .stackOverflow (some (0x2#4 ++ nnn)) none s t)

/-- R28 with R190 and R192: what CALL saved, the matching RET restores, and the stack is as before. -/
def Obligations.CallThenReturn : Prop :=
  ∀ (nnn : Addr) (s : State), s.stack.length < 16 →
    ∃ t u, exec (.call nnn) s = .next t ∧ exec .ret t = .next u ∧ u.pc.toNat = (s.pc.toNat + 2) % 65536 ∧
      SameOutside (· = .pc) s u

/-- R191: any target, and a target of 0xFFF makes the next fetch fault. -/
def Obligations.JumpSetsPc : Prop :=
  ∀ (nnn : Addr) (s : State), decode (0x1#4 ++ nnn) = .ok (.jp nnn) ∧
    ∃ t, exec (.jp nnn) s = .next t ∧ t.pc.toNat = nnn.toNat ∧ SameOutside (· = .pc) s t ∧
      (s.Running → nnn = 0xFFF → NextFetchFaults t)

/-- R197: the sum is not reduced; it is at most 0x10FE, and a target above 0xFFE makes the next fetch fault. -/
def Obligations.JumpOffsetV0 : Prop :=
  ∀ (nnn : Addr) (s : State), decode (0xB#4 ++ nnn) = .ok (.jpV0 nnn) ∧
    ∃ t, exec (.jpV0 nnn) s = .next t ∧ t.pc.toNat = nnn.toNat + (s.getV 0x0).toNat ∧ t.pc.toNat ≤ 0x10FE ∧
      SameOutside (· = .pc) s t ∧ (s.Running → 0xFFE < t.pc.toNat → NextFetchFaults t)

/-- R193, R194: SE and SNE with an immediate; a taken skip sets PC to pc0 + 4, mod 65536 (R198). -/
def Obligations.SkipOnImmediate : Prop :=
  ∀ (x : Reg) (kk : Byte) (s : State),
    decode (0x3#4 ++ x ++ kk) = .ok (.seVxKk x kk) ∧ decode (0x4#4 ++ x ++ kk) = .ok (.sneVxKk x kk) ∧
    (∃ t, exec (.seVxKk x kk) s = .next t ∧
      t.pc.toNat = (s.pc.toNat + if s.getV x = kk then 4 else 2) % 65536 ∧ SameOutside (· = .pc) s t) ∧
    (∃ t, exec (.sneVxKk x kk) s = .next t ∧
      t.pc.toNat = (s.pc.toNat + if s.getV x = kk then 2 else 4) % 65536 ∧ SameOutside (· = .pc) s t)

/-- R195, R196: SE and SNE on two registers, whatever n is. -/
def Obligations.SkipOnRegisters : Prop :=
  ∀ (x y : Reg) (n : Nibble) (s : State),
    decode (0x5#4 ++ x ++ y ++ n) = .ok (.seVxVy x y n) ∧ decode (0x9#4 ++ x ++ y ++ n) = .ok (.sneVxVy x y n) ∧
    (∃ t, exec (.seVxVy x y n) s = .next t ∧
      t.pc.toNat = (s.pc.toNat + if s.getV x = s.getV y then 4 else 2) % 65536 ∧ SameOutside (· = .pc) s t) ∧
    (∃ t, exec (.sneVxVy x y n) s = .next t ∧
      t.pc.toNat = (s.pc.toNat + if s.getV x = s.getV y then 2 else 4) % 65536 ∧ SameOutside (· = .pc) s t)

/-- R348, R191: a jump to itself leaves the whole state unchanged. -/
def Obligations.SelfJumpIsFixpoint : Prop :=
  ∀ (nnn : Addr) (s : State), s.Running → s.pc.toNat = nnn.toNat → s.pc.toNat ≤ 0xFFE → s.fetchWord = 0x1#4 ++ nnn →
    step s = .next s

/-! ## ALU -/

/-- R151, R152. -/
def Obligations.LoadRegister : Prop :=
  ∀ (x y : Reg) (kk : Byte) (s : State),
    decode (0x6#4 ++ x ++ kk) = .ok (.ldVxKk x kk) ∧ decode (0x8#4 ++ x ++ y ++ 0x0#4) = .ok (.ldVxVy x y) ∧
    (∃ t, exec (.ldVxKk x kk) s = .next t ∧ t.getV x = kk ∧ t.pc.toNat = (s.pc.toNat + 2) % 65536 ∧
      SameOutside (· ∈ [.pc, .reg x]) s t) ∧
    (∃ t, exec (.ldVxVy x y) s = .next t ∧ t.getV x = s.getV y ∧ t.pc.toNat = (s.pc.toNat + 2) % 65536 ∧
      SameOutside (· ∈ [.pc, .reg x]) s t)

/-- R153: no flag, VF is written only as the destination. -/
def Obligations.AddImmediate : Prop :=
  ∀ (x : Reg) (kk : Byte) (s : State), decode (0x7#4 ++ x ++ kk) = .ok (.addVxKk x kk) ∧
    ∃ t, exec (.addVxKk x kk) s = .next t ∧ (t.getV x).toNat = ((s.getV x).toNat + kk.toNat) % 256 ∧
      t.pc.toNat = (s.pc.toNat + 2) % 65536 ∧ SameOutside (· ∈ [.pc, .reg x]) s t

/-- R154, R155, R156: bit by bit, no flag. -/
def Obligations.BitwiseRegisters : Prop :=
  ∀ (x y : Reg) (s : State),
    decode (0x8#4 ++ x ++ y ++ 0x1#4) = .ok (.orVxVy x y) ∧ decode (0x8#4 ++ x ++ y ++ 0x2#4) = .ok (.andVxVy x y) ∧
    decode (0x8#4 ++ x ++ y ++ 0x3#4) = .ok (.xorVxVy x y) ∧
    (∃ t, exec (.orVxVy x y) s = .next t ∧
      (∀ k, k < 8 → (t.getV x).getLsbD k = ((s.getV x).getLsbD k || (s.getV y).getLsbD k)) ∧
      t.pc.toNat = (s.pc.toNat + 2) % 65536 ∧ SameOutside (· ∈ [.pc, .reg x]) s t) ∧
    (∃ t, exec (.andVxVy x y) s = .next t ∧
      (∀ k, k < 8 → (t.getV x).getLsbD k = ((s.getV x).getLsbD k && (s.getV y).getLsbD k)) ∧
      t.pc.toNat = (s.pc.toNat + 2) % 65536 ∧ SameOutside (· ∈ [.pc, .reg x]) s t) ∧
    (∃ t, exec (.xorVxVy x y) s = .next t ∧
      (∀ k, k < 8 → (t.getV x).getLsbD k = ((s.getV x).getLsbD k ^^ (s.getV y).getLsbD k)) ∧
      t.pc.toNat = (s.pc.toNat + 2) % 65536 ∧ SameOutside (· ∈ [.pc, .reg x]) s t)

/-- R158: the sum mod 256 and the carry; with x = 0xF, VF holds the carry. -/
def Obligations.AddRegisters : Prop :=
  ∀ (x y : Reg) (s : State), decode (0x8#4 ++ x ++ y ++ 0x4#4) = .ok (.addVxVy x y) ∧
    ∃ t, exec (.addVxVy x y) s = .next t ∧
      (x ≠ regF → (t.getV x).toNat = ((s.getV x).toNat + (s.getV y).toNat) % 256) ∧
      t.getV regF = (if 255 < (s.getV x).toNat + (s.getV y).toNat then 0x01 else 0x00) ∧
      t.pc.toNat = (s.pc.toNat + 2) % 65536 ∧ SameOutside (· ∈ [.pc, .reg x, .reg regF]) s t

/-- R159, R161: the difference mod 256 and the strict no-borrow flag; with x = 0xF, VF holds the flag. -/
def Obligations.SubtractRegisters : Prop :=
  ∀ (x y : Reg) (s : State),
    decode (0x8#4 ++ x ++ y ++ 0x5#4) = .ok (.subVxVy x y) ∧ decode (0x8#4 ++ x ++ y ++ 0x7#4) = .ok (.subnVxVy x y) ∧
    (∃ t, exec (.subVxVy x y) s = .next t ∧
      (x ≠ regF → ((t.getV x).toNat : Int) = (((s.getV x).toNat : Int) - (s.getV y).toNat) % 256) ∧
      t.getV regF = (if (s.getV y).toNat < (s.getV x).toNat then 0x01 else 0x00) ∧
      t.pc.toNat = (s.pc.toNat + 2) % 65536 ∧ SameOutside (· ∈ [.pc, .reg x, .reg regF]) s t) ∧
    (∃ t, exec (.subnVxVy x y) s = .next t ∧
      (x ≠ regF → ((t.getV x).toNat : Int) = (((s.getV y).toNat : Int) - (s.getV x).toNat) % 256) ∧
      t.getV regF = (if (s.getV x).toNat < (s.getV y).toNat then 0x01 else 0x00) ∧
      t.pc.toNat = (s.pc.toNat + 2) % 65536 ∧ SameOutside (· ∈ [.pc, .reg x, .reg regF]) s t)

/-- R160: V[x] div 2 and the bit shifted out, whatever y is. -/
def Obligations.ShiftRight : Prop :=
  ∀ (x y : Reg) (s : State), decode (0x8#4 ++ x ++ y ++ 0x6#4) = .ok (.shr x y) ∧
    ∃ t, exec (.shr x y) s = .next t ∧
      (x ≠ regF → (t.getV x).toNat = (s.getV x).toNat / 2) ∧ (t.getV regF).toNat = (s.getV x).toNat % 2 ∧
      t.pc.toNat = (s.pc.toNat + 2) % 65536 ∧ SameOutside (· ∈ [.pc, .reg x, .reg regF]) s t

/-- R162: 2 V[x] mod 256 and the masked bit shifted out, 0x80 and not 0x01, whatever y is. -/
def Obligations.ShiftLeft : Prop :=
  ∀ (x y : Reg) (s : State), decode (0x8#4 ++ x ++ y ++ 0xE#4) = .ok (.shl x y) ∧
    ∃ t, exec (.shl x y) s = .next t ∧
      (x ≠ regF → (t.getV x).toNat = (s.getV x).toNat * 2 % 256) ∧
      t.getV regF = (if 0x80 ≤ (s.getV x).toNat then 0x80 else 0x00) ∧
      t.pc.toNat = (s.pc.toNat + 2) % 65536 ∧ SameOutside (· ∈ [.pc, .reg x, .reg regF]) s t

/-- R170: V[x] is the drawn byte AND kk. The byte is the model's free value of this draw, and one draw is counted
(DESIGN CHOICE, log 3); the effect is the same whatever byte `r` is drawn. -/
def Obligations.RandomMasked : Prop :=
  ∀ (x : Reg) (kk : Byte) (s : State), decode (0xC#4 ++ x ++ kk) = .ok (.rnd x kk) ∧
    (∃ t, exec (.rnd x kk) s = .next t ∧ t.getV x = Config.rand s.draws &&& kk ∧ t.draws = s.draws + 1 ∧
      t.pc.toNat = (s.pc.toNat + 2) % 65536 ∧ SameOutside (· ∈ [.pc, .reg x, .draws]) s t) ∧
    (∀ r : Byte, (rndWith r x kk s).getV x = r &&& kk ∧ SameOutside (· ∈ [.pc, .reg x, .draws]) s (rndWith r x kk s))

/-! ## Keys and timers -/

/-- R250, R251, R252: a key number above 0xF is never held. -/
def Obligations.SkipOnKey : Prop :=
  ∀ (x : Reg) (s : State),
    decode (0xE#4 ++ x ++ 0x9E#8) = .ok (.skp x) ∧ decode (0xE#4 ++ x ++ 0xA1#8) = .ok (.sknp x) ∧
    (∃ t, exec (.skp x) s = .next t ∧ SameOutside (· = .pc) s t ∧
      t.pc.toNat = (s.pc.toNat +
        if (s.getV x).toNat ≤ 0xF ∧ s.keys.getLsbD (s.getV x).toNat = true then 4 else 2) % 65536) ∧
    (∃ t, exec (.sknp x) s = .next t ∧ SameOutside (· = .pc) s t ∧
      t.pc.toNat = (s.pc.toNat +
        if (s.getV x).toNat ≤ 0xF ∧ s.keys.getLsbD (s.getV x).toNat = true then 2 else 4) % 65536)

/-- R253, R255, R256. -/
def Obligations.TimerMoves : Prop :=
  ∀ (x : Reg) (s : State),
    decode (0xF#4 ++ x ++ 0x07#8) = .ok (.ldVxDt x) ∧ decode (0xF#4 ++ x ++ 0x15#8) = .ok (.ldDtVx x) ∧
    decode (0xF#4 ++ x ++ 0x18#8) = .ok (.ldStVx x) ∧
    (∃ t, exec (.ldVxDt x) s = .next t ∧ t.getV x = s.dt ∧ t.pc.toNat = (s.pc.toNat + 2) % 65536 ∧
      SameOutside (· ∈ [.pc, .reg x]) s t) ∧
    (∃ t, exec (.ldDtVx x) s = .next t ∧ t.dt = s.getV x ∧ t.pc.toNat = (s.pc.toNat + 2) % 65536 ∧
      SameOutside (· ∈ [.pc, .delayTimer]) s t) ∧
    (∃ t, exec (.ldStVx x) s = .next t ∧ t.st = s.getV x ∧ t.pc.toNat = (s.pc.toNat + 2) % 65536 ∧
      SameOutside (· ∈ [.pc, .soundTimer]) s t)

/-- R254: the block waits for V[x]; no register is written, and PC is past the instruction. -/
def Obligations.KeyWaitStarts : Prop :=
  ∀ (x : Reg) (s : State), decode (0xF#4 ++ x ++ 0x0A#8) = .ok (.ldVxK x) ∧
    ∃ t, exec (.ldVxK x) s = .next t ∧ t.paused = true ∧ t.waitReg = some x ∧
      t.pc.toNat = (s.pc.toNat + 2) % 65536 ∧ SameOutside (· ∈ [.pc, .pauseState]) s t

/-- R260, R261: KEY_PRESS completes a key wait, and changes nothing in RUN and in HALT. -/
def Obligations.KeyPressDelivers : Prop :=
  ∀ (s : State) (k : Nibble),
    (∀ r, s.fault = none → s.paused = true → s.waitReg = some r →
      ((s.keyPress k).getV r).toNat = k.toNat ∧ (s.keyPress k).paused = false ∧ (s.keyPress k).waitReg = none ∧
      SameOutside (· ∈ [.reg r, .pauseState]) s (s.keyPress k)) ∧
    (s.paused = false ∨ s.fault ≠ none → s.keyPress k = s)

/-- R262: each timer steps toward zero and never below it, in RUN only. -/
def Obligations.TickDecrements : Prop :=
  ∀ s : State,
    (s.fault = none → s.paused = false →
      s.tick.dt.toNat = s.dt.toNat - 1 ∧ s.tick.st.toNat = s.st.toNat - 1 ∧
      SameOutside (· ∈ [.delayTimer, .soundTimer]) s s.tick) ∧
    (s.paused = true ∨ s.fault ≠ none → s.tick = s)

/-- R263, R48: SOUND is ST != 0 in every control state, and it stays while the block waits for a key; PAUSED, FAULT and
FB are the state's own. -/
def Obligations.OutputsFollowState : Prop :=
  ∀ s : State, (s.soundOut = true ↔ s.st ≠ 0) ∧ s.pausedOut = s.paused ∧ s.faultOut = s.fault ∧
    (∀ x y, s.fbOut x y = s.fb.pixel x.val y.val) ∧
    (s.control = .waitKey → s.tick.soundOut = s.soundOut ∧ step s = .next s)

/-- R337, R346: frames of any number of STEPs, with their TICK, leave a waiting block as it is: PC, timers, SOUND. -/
def Obligations.FramesHoldWhileWaiting : Prop :=
  ∀ (steps : Nat) (s : State), s.control = .waitKey → run (frame steps) s = .next s

/-! ## Address register and memory -/

/-- R280, R281, R282. -/
def Obligations.AddressRegister : Prop :=
  ∀ (nnn : Addr) (x : Reg) (s : State),
    decode (0xA#4 ++ nnn) = .ok (.ldI nnn) ∧ decode (0xF#4 ++ x ++ 0x1E#8) = .ok (.addIVx x) ∧
    decode (0xF#4 ++ x ++ 0x29#8) = .ok (.ldFVx x) ∧
    (∃ t, exec (.ldI nnn) s = .next t ∧ t.i.toNat = nnn.toNat ∧ t.pc.toNat = (s.pc.toNat + 2) % 65536 ∧
      SameOutside (· ∈ [.pc, .addressReg]) s t) ∧
    (∃ t, exec (.addIVx x) s = .next t ∧ t.i.toNat = (s.i.toNat + (s.getV x).toNat) % 65536 ∧
      t.pc.toNat = (s.pc.toNat + 2) % 65536 ∧ SameOutside (· ∈ [.pc, .addressReg]) s t) ∧
    (∃ t, exec (.ldFVx x) s = .next t ∧ t.i.toNat = 5 * (s.getV x).toNat ∧
      t.pc.toNat = (s.pc.toNat + 2) % 65536 ∧ SameOutside (· ∈ [.pc, .addressReg]) s t)

/-- R283: the three digits at I, I+1, I+2, or AddressOutOfRange with no byte written. -/
def Obligations.StoreDigits : Prop :=
  ∀ (x : Reg) (s : State), decode (0xF#4 ++ x ++ 0x33#8) = .ok (.ldBVx x) ∧
    (s.MemOk → s.i.toNat + 2 ≤ 0xFFF →
      ∃ t, exec (.ldBVx x) s = .next t ∧
        (t.mem.read s.i.toNat).toNat = (s.getV x).toNat / 100 ∧
        (t.mem.read (s.i.toNat + 1)).toNat = (s.getV x).toNat / 10 % 10 ∧
        (t.mem.read (s.i.toNat + 2)).toNat = (s.getV x).toNat % 10 ∧
        t.pc.toNat = (s.pc.toNat + 2) % 65536 ∧
        SameOutside (fun p => p = .pc ∨ ∃ k, k < 3 ∧ p = .byte (s.i.toNat + k)) s t) ∧
    (0xFFF < s.i.toNat + 2 → ∃ t, exec (.ldBVx x) s = .next t ∧
      HaltedBy .addressOutOfRange (some (0xF#4 ++ x ++ 0x33#8)) (some (max s.i.toNat 0x1000)) s t)

/-- R284: V[0]..V[x] at I..I+x, I unchanged, or AddressOutOfRange with no byte written. -/
def Obligations.StoreRegisters : Prop :=
  ∀ (x : Reg) (s : State), decode (0xF#4 ++ x ++ 0x55#8) = .ok (.ldMemVx x) ∧
    (s.MemOk → s.i.toNat + x.toNat ≤ 0xFFF →
      ∃ t, exec (.ldMemVx x) s = .next t ∧
        (∀ r : Reg, r.toNat ≤ x.toNat → t.mem.read (s.i.toNat + r.toNat) = s.getV r) ∧
        t.pc.toNat = (s.pc.toNat + 2) % 65536 ∧
        SameOutside (fun p => p = .pc ∨ ∃ k, k ≤ x.toNat ∧ p = .byte (s.i.toNat + k)) s t) ∧
    (0xFFF < s.i.toNat + x.toNat → ∃ t, exec (.ldMemVx x) s = .next t ∧
      HaltedBy .addressOutOfRange (some (0xF#4 ++ x ++ 0x55#8)) (some (max s.i.toNat 0x1000)) s t)

/-- R285: V[0]..V[x] from I..I+x, registers above x and I unchanged, or AddressOutOfRange with no register changed. -/
def Obligations.LoadRegisters : Prop :=
  ∀ (x : Reg) (s : State), decode (0xF#4 ++ x ++ 0x65#8) = .ok (.ldVxMem x) ∧
    (s.i.toNat + x.toNat ≤ 0xFFF →
      ∃ t, exec (.ldVxMem x) s = .next t ∧
        (∀ r : Reg, r.toNat ≤ x.toNat → t.getV r = s.mem.read (s.i.toNat + r.toNat)) ∧
        t.pc.toNat = (s.pc.toNat + 2) % 65536 ∧
        SameOutside (fun p => p = .pc ∨ ∃ r : Reg, r.toNat ≤ x.toNat ∧ p = .reg r) s t) ∧
    (0xFFF < s.i.toNat + x.toNat → ∃ t, exec (.ldVxMem x) s = .next t ∧
      HaltedBy .addressOutOfRange (some (0xF#4 ++ x ++ 0x65#8)) (some (max s.i.toNat 0x1000)) s t)

/-- R74, R345: two bytes stored by Fx55 where PC then points are the very next instruction. -/
def Obligations.StoredWordIsFetched : Prop :=
  ∀ (x : Reg) (s t : State) (a b : Reg) (i : Instr), s.MemOk → s.Running → s.i.toNat + x.toNat ≤ 0xFFF →
    exec (.ldMemVx x) s = .next t → b.toNat = a.toNat + 1 → b.toNat ≤ x.toNat →
    t.pc.toNat = s.i.toNat + a.toNat → decode (s.getV a ++ s.getV b) = .ok i → step t = exec i t

/-- R342, R320: LOAD places byte k at 0x200 + k and writes nothing else; an image of more than 3584 bytes is reported and
changes nothing; a halted block refuses it. -/
def Obligations.LoadPlacesImage : Prop :=
  ∀ (s : State) (bytes : List Byte),
    (s.fault ≠ none → s.load bytes = (.refusedHalted, s)) ∧
    (s.fault = none → s.MemOk → bytes.length ≤ 3584 →
      (s.load bytes).1 = .loaded ∧
      (∀ k, (h : k < bytes.length) → (s.load bytes).2.mem.read (0x200 + k) = bytes[k]) ∧
      SameOutside (fun p => ∃ k, k < bytes.length ∧ p = .byte (0x200 + k)) s (s.load bytes).2) ∧
    (s.fault = none → 3584 < bytes.length → s.load bytes = (.programTooLarge, s))

/-- R343, R341: after RESET and LOAD, from any state, the first STEP executes the instruction of the first two bytes. -/
def Obligations.BootRunsImage : Prop :=
  ∀ (s : State) (hi lo : Byte) (rest : List Byte) (i : Instr), rest.length + 2 ≤ 3584 → decode (hi ++ lo) = .ok i →
    ∃ t, run (boot (hi :: lo :: rest)) s = .next t ∧ t.pc = 0x200 ∧ step t = exec i t

/-! ## Every instruction -/

/-- R22, R35: an instruction changes VF only as one of the six flag writers, as its destination V[x] with x = 0xF, or as
the last register of Fx65. -/
def Obligations.FlagWrittenOnlyBy : Prop :=
  ∀ (i : Instr) (s t : State), exec i s = .next t → t.getV regF ≠ s.getV regF →
    (∃ x y, i = .addVxVy x y ∨ i = .subVxVy x y ∨ i = .shr x y ∨ i = .subnVxVy x y ∨ i = .shl x y) ∨
    (∃ x y n, i = .drw x y n) ∨ (∃ kk, i = .ldVxKk regF kk ∨ i = .addVxKk regF kk ∨ i = .rnd regF kk) ∨
    (∃ y, i = .ldVxVy regF y ∨ i = .orVxVy regF y ∨ i = .andVxVy regF y ∨ i = .xorVxVy regF y) ∨
    i = .ldVxDt regF ∨ i = .ldVxMem regF

/-- R25, R27, R29 to R32, R65: each part of the state has only the writers its rule names. -/
def Obligations.PartsHaveTheirWriters : Prop :=
  ∀ (i : Instr) (s t : State), exec i s = .next t →
    (t.i ≠ s.i → (∃ nnn, i = .ldI nnn) ∨ ∃ x, i = .addIVx x ∨ i = .ldFVx x) ∧
    (t.stack ≠ s.stack → i = .ret ∨ ∃ nnn, i = .call nnn) ∧
    (t.dt ≠ s.dt → ∃ x, i = .ldDtVx x) ∧ (t.st ≠ s.st → ∃ x, i = .ldStVx x) ∧
    (t.fb ≠ s.fb → i = .cls ∨ ∃ x y n, i = .drw x y n) ∧
    (t.paused ≠ s.paused ∨ t.waitReg ≠ s.waitReg → ∃ x, i = .ldVxK x) ∧
    (t.mem ≠ s.mem → ∃ x, i = .ldBVx x ∨ i = .ldMemVx x) ∧
    (t.fault ≠ s.fault → i = .ret ∨ (∃ nnn, i = .call nnn) ∨ (∃ x y n, i = .drw x y n) ∨
      ∃ x, i = .ldBVx x ∨ i = .ldMemVx x ∨ i = .ldVxMem x)

/-- R23: an instruction that does not fault leaves PC at pc0 + 2, adds 2 more as a skip, or replaces it as a jump, call
or return. -/
def Obligations.PcAfterInstruction : Prop :=
  ∀ (i : Instr) (s t : State), exec i s = .next t → s.fault = none → t.fault = none →
    t.pc.toNat = (s.pc.toNat + 2) % 65536 ∨
    (t.pc.toNat = (s.pc.toNat + 4) % 65536 ∧
      ((∃ x kk, i = .seVxKk x kk ∨ i = .sneVxKk x kk) ∨ (∃ x y n, i = .seVxVy x y n ∨ i = .sneVxVy x y n) ∨
        ∃ x, i = .skp x ∨ i = .sknp x)) ∨
    i = .ret ∨ ∃ nnn, i = .jp nnn ∨ i = .call nnn ∨ i = .jpV0 nnn

/-- R250, R170, R265: no instruction but Ex9E and ExA1 depends on KEYS, and none but Cxkk on the bytes of RAND (the
model's count of draws, log 3): a run that differs only in them ends in a state that differs only in them. -/
def Obligations.InputsSampledOnlyBy : Prop :=
  ∀ (i : Instr) (s t : State) (k : Word) (d : Nat), exec i s = .next t →
    ((∀ x, i ≠ .skp x ∧ i ≠ .sknp x) → exec i { s with keys := k } = .next { t with keys := k }) ∧
    ((∀ x kk, i ≠ .rnd x kk) → exec i { s with draws := d } = .next { t with draws := d })

/-- R65, R198: no instruction but Dxyn, Fx33, Fx55 and Fx65 depends on what memory holds; a taken skip does not read the
word it passes. -/
def Obligations.MemoryReadOnlyBy : Prop :=
  ∀ (i : Instr) (s t : State) (m : Memory), exec i s = .next t →
    (∀ x y n, i ≠ .drw x y n) → (∀ x, i ≠ .ldBVx x ∧ i ≠ .ldMemVx x ∧ i ≠ .ldVxMem x) →
    exec i { s with mem := m } = .next { t with mem := m }
end

