-- ==== Sys2Proof/Laws/Decode.lean ====
section
/-! SUPPORT. Fields and words as numbers (30_encoding.md R90): each field is a digit group of the word, a word is put
together from its fields, and the encoder's words have the fields they were made of. -/

namespace Sys2Proof

theorem toNat_wordNnn (c : Nibble) (nnn : Addr) : (wordNnn c nnn).toNat = c.toNat * 4096 + nnn.toNat := by
  have h := nnn.isLt
  show (c ++ nnn).toNat = _
  rw [BitVec.toNat_append, ← Nat.shiftLeft_add_eq_or_of_lt h, Nat.shiftLeft_eq]

theorem toNat_wordXKk (c : Nibble) (x : Reg) (kk : Byte) :
    (wordXKk c x kk).toNat = c.toNat * 4096 + x.toNat * 256 + kk.toNat := by
  have h := kk.isLt
  have h' := x.isLt
  show (c ++ x ++ kk).toNat = _
  rw [BitVec.toNat_append, BitVec.toNat_append, ← Nat.shiftLeft_add_eq_or_of_lt h, ← Nat.shiftLeft_add_eq_or_of_lt h',
    Nat.shiftLeft_eq, Nat.shiftLeft_eq]
  omega

theorem toNat_wordXYN (c : Nibble) (x y : Reg) (n : Nibble) :
    (wordXYN c x y n).toNat = c.toNat * 4096 + x.toNat * 256 + y.toNat * 16 + n.toNat := by
  have h := n.isLt
  have h' := y.isLt
  have h'' := x.isLt
  show (c ++ x ++ y ++ n).toNat = _
  rw [BitVec.toNat_append, BitVec.toNat_append, BitVec.toNat_append, ← Nat.shiftLeft_add_eq_or_of_lt h,
    ← Nat.shiftLeft_add_eq_or_of_lt h', ← Nat.shiftLeft_add_eq_or_of_lt h'', Nat.shiftLeft_eq, Nat.shiftLeft_eq,
    Nat.shiftLeft_eq]
  omega

theorem toNat_wordOfBytes (hi lo : Byte) : (wordOfBytes hi lo).toNat = hi.toNat * 256 + lo.toNat := by
  have h := lo.isLt
  show (hi ++ lo).toNat = _
  rw [BitVec.toNat_append, ← Nat.shiftLeft_add_eq_or_of_lt h, Nat.shiftLeft_eq]

theorem toNat_fieldClass (w : Word) : (fieldClass w).toNat = w.toNat / 4096 % 16 := by
  simp [fieldClass, Nat.shiftRight_eq_div_pow]

theorem toNat_fieldX (w : Word) : (fieldX w).toNat = w.toNat / 256 % 16 := by
  simp [fieldX, Nat.shiftRight_eq_div_pow]

theorem toNat_fieldY (w : Word) : (fieldY w).toNat = w.toNat / 16 % 16 := by
  simp [fieldY, Nat.shiftRight_eq_div_pow]

theorem toNat_fieldN (w : Word) : (fieldN w).toNat = w.toNat % 16 := by
  simp [fieldN, Nat.shiftRight_eq_div_pow]

theorem toNat_fieldKk (w : Word) : (fieldKk w).toNat = w.toNat % 256 := by
  simp [fieldKk, Nat.shiftRight_eq_div_pow]

theorem toNat_fieldNnn (w : Word) : (fieldNnn w).toNat = w.toNat % 4096 := by
  simp [fieldNnn, Nat.shiftRight_eq_div_pow]

theorem toNat_highByte (w : Word) : (highByte w).toNat = w.toNat / 256 % 256 := by
  simp [highByte, Nat.shiftRight_eq_div_pow]

theorem toNat_lowByte (w : Word) : (lowByte w).toNat = w.toNat % 256 := by
  simp [lowByte, Nat.shiftRight_eq_div_pow]

@[simp] theorem fieldClass_wordNnn (c : Nibble) (nnn : Addr) : fieldClass (wordNnn c nnn) = c := by
  have := c.isLt
  have := nnn.isLt
  apply BitVec.eq_of_toNat_eq
  rw [toNat_fieldClass, toNat_wordNnn]
  omega

@[simp] theorem fieldNnn_wordNnn (c : Nibble) (nnn : Addr) : fieldNnn (wordNnn c nnn) = nnn := by
  have := c.isLt
  have := nnn.isLt
  apply BitVec.eq_of_toNat_eq
  rw [toNat_fieldNnn, toNat_wordNnn]
  omega

@[simp] theorem fieldClass_wordXKk (c : Nibble) (x : Reg) (kk : Byte) : fieldClass (wordXKk c x kk) = c := by
  have := c.isLt
  have := x.isLt
  have := kk.isLt
  apply BitVec.eq_of_toNat_eq
  rw [toNat_fieldClass, toNat_wordXKk]
  omega

@[simp] theorem fieldX_wordXKk (c : Nibble) (x : Reg) (kk : Byte) : fieldX (wordXKk c x kk) = x := by
  have := c.isLt
  have := x.isLt
  have := kk.isLt
  apply BitVec.eq_of_toNat_eq
  rw [toNat_fieldX, toNat_wordXKk]
  omega

@[simp] theorem fieldKk_wordXKk (c : Nibble) (x : Reg) (kk : Byte) : fieldKk (wordXKk c x kk) = kk := by
  have := c.isLt
  have := x.isLt
  have := kk.isLt
  apply BitVec.eq_of_toNat_eq
  rw [toNat_fieldKk, toNat_wordXKk]
  omega

@[simp] theorem fieldClass_wordXYN (c : Nibble) (x : Reg) (y : Reg) (n : Nibble) : fieldClass (wordXYN c x y n) = c := by
  have := c.isLt
  have := x.isLt
  have := y.isLt
  have := n.isLt
  apply BitVec.eq_of_toNat_eq
  rw [toNat_fieldClass, toNat_wordXYN]
  omega

@[simp] theorem fieldX_wordXYN (c : Nibble) (x : Reg) (y : Reg) (n : Nibble) : fieldX (wordXYN c x y n) = x := by
  have := c.isLt
  have := x.isLt
  have := y.isLt
  have := n.isLt
  apply BitVec.eq_of_toNat_eq
  rw [toNat_fieldX, toNat_wordXYN]
  omega

@[simp] theorem fieldY_wordXYN (c : Nibble) (x : Reg) (y : Reg) (n : Nibble) : fieldY (wordXYN c x y n) = y := by
  have := c.isLt
  have := x.isLt
  have := y.isLt
  have := n.isLt
  apply BitVec.eq_of_toNat_eq
  rw [toNat_fieldY, toNat_wordXYN]
  omega

@[simp] theorem fieldN_wordXYN (c : Nibble) (x : Reg) (y : Reg) (n : Nibble) : fieldN (wordXYN c x y n) = n := by
  have := c.isLt
  have := x.isLt
  have := y.isLt
  have := n.isLt
  apply BitVec.eq_of_toNat_eq
  rw [toNat_fieldN, toNat_wordXYN]
  omega

theorem wordNnn_fields (w : Word) : wordNnn (fieldClass w) (fieldNnn w) = w := by
  have := w.isLt
  apply BitVec.eq_of_toNat_eq
  rw [toNat_wordNnn, toNat_fieldClass, toNat_fieldNnn]
  omega

theorem wordXKk_fields (w : Word) : wordXKk (fieldClass w) (fieldX w) (fieldKk w) = w := by
  have := w.isLt
  apply BitVec.eq_of_toNat_eq
  rw [toNat_wordXKk, toNat_fieldClass, toNat_fieldX, toNat_fieldKk]
  omega

theorem wordXYN_fields (w : Word) : wordXYN (fieldClass w) (fieldX w) (fieldY w) (fieldN w) = w := by
  have := w.isLt
  apply BitVec.eq_of_toNat_eq
  rw [toNat_wordXYN, toNat_fieldClass, toNat_fieldX, toNat_fieldY, toNat_fieldN]
  omega

@[simp] theorem wordOfBytes_high_low (w : Word) : wordOfBytes (highByte w) (lowByte w) = w := by
  have := w.isLt
  apply BitVec.eq_of_toNat_eq
  rw [toNat_wordOfBytes, toNat_highByte, toNat_lowByte]
  omega

/-- The decoder on the bytes of a word is the decoder on the word (20_memory.md R63). -/
theorem decodeBytes_cons (hi lo : Byte) (rest : List Byte) :
    decodeBytes (hi :: lo :: rest) =
      match decode (wordOfBytes hi lo) with
      | .ok i => .ok (i, rest)
      | .error e => .error e := rfl

/-- `decode` rejects a word only by the name of that word (30_encoding.md R100). -/
theorem decode_error (w : Word) (e : Reject) (h : decode w = .error e) : e = .unknownOpcode w := by
  unfold decode decodeClass0 decodeClass8 decodeClassE decodeClassF at h
  repeat' split at h
  all_goals simp_all

theorem fieldClass_eq_iff (w : Word) (m : Nibble) : fieldClass w = m ↔ w.toNat / 4096 = m.toNat := by
  have := w.isLt
  rw [← BitVec.toNat_inj, toNat_fieldClass, Nat.mod_eq_of_lt (by omega)]

theorem fieldN_eq_iff (w : Word) (m : Nibble) : fieldN w = m ↔ w.toNat % 16 = m.toNat := by
  rw [← BitVec.toNat_inj, toNat_fieldN]

theorem fieldKk_eq_iff (w : Word) (m : Byte) : fieldKk w = m ↔ w.toNat % 256 = m.toNat := by
  rw [← BitVec.toNat_inj, toNat_fieldKk]

/-- A field that a row's mask covers is the row's own (30_encoding.md R99). -/
theorem fieldClass_of_and {w m b : Word} (h : w &&& m = b) (hm : fieldClass m = BitVec.allOnes 4) :
    fieldClass w = fieldClass b := by
  rw [← h]; unfold fieldClass at *; rw [BitVec.extractLsb'_and, hm, BitVec.and_allOnes]

theorem fieldN_of_and {w m b : Word} (h : w &&& m = b) (hm : fieldN m = BitVec.allOnes 4) : fieldN w = fieldN b := by
  rw [← h]; unfold fieldN at *; rw [BitVec.extractLsb'_and, hm, BitVec.and_allOnes]

theorem fieldKk_of_and {w m b : Word} (h : w &&& m = b) (hm : fieldKk m = BitVec.allOnes 8) : fieldKk w = fieldKk b := by
  rw [← h]; unfold fieldKk at *; rw [BitVec.extractLsb'_and, hm, BitVec.and_allOnes]

end Sys2Proof
end

