-- ==== Sys2Proof/Laws/Ops.lean ====
section
/-! SUPPORT. One lemma per shared operation that says everything it can do: register reads after writes, the block load
of registers, the skip, the call stack, the range check of the data addressing mode, and the flags. -/

namespace Sys2Proof.Machine

@[simp] theorem State.getV_setV_self (s : State) (r : Reg) (b : Byte) : (s.setV r b).getV r = b := by
  simp [State.getV, Regs.write]

theorem State.getV_setV_of_ne (s : State) {r q : Reg} (b : Byte) (h : q ≠ r) : (s.setV r b).getV q = s.getV q := by
  have h' : r.toNat ≠ q.toNat := fun e => h (BitVec.eq_of_toNat_eq e.symm)
  simp [State.getV, Regs.write, Vector.getElem_set_ne, h']

/-- A register read after a register write (10_state.md R21: no register is hardwired). -/
theorem State.getV_setV (s : State) (r q : Reg) (b : Byte) :
    (s.setV r b).getV q = if q = r then b else s.getV q := by
  split
  · subst q; simp
  · exact State.getV_setV_of_ne s b ‹_›

@[simp] theorem State.getV_setRegs (s : State) (v : Regs) (q : Reg) : (s.setRegs v).getV q = v[q.toNat]'q.isLt := rfl

theorem Regs.getElem_write (v : Regs) (r q : Reg) (b : Byte) :
    (Regs.write v r b)[q.toNat]'q.isLt = if q = r then b else v[q.toNat]'q.isLt := by
  have := State.getV_setV (State.reset.setRegs v) r q b
  simpa [State.getV] using this

/-- The block load: register k + j takes byte j, every other register keeps its value (45_index_memory.md R285). -/
theorem Regs.getElem_load (bs : List Byte) (v : Regs) (k : Nat) (hk : k + bs.length ≤ 16) (q : Reg) :
    (v.load k bs)[q.toNat]'q.isLt =
      if h : k ≤ q.toNat ∧ q.toNat < k + bs.length then bs[q.toNat - k]'(by omega) else v[q.toNat]'q.isLt := by
  induction bs generalizing v k with
  | nil => simp only [Regs.load, List.length_nil]; rw [dif_neg]; omega
  | cons b bs ih =>
    simp only [List.length_cons] at hk
    simp only [Regs.load, List.length_cons]
    rw [ih _ (k + 1) (by omega), Regs.getElem_write]
    have hq : q = BitVec.ofNat 4 k ↔ q.toNat = k := by
      rw [← BitVec.toNat_inj, BitVec.toNat_ofNat, Nat.mod_eq_of_lt (by omega)]
    by_cases h1 : q.toNat = k
    · rw [dif_neg (by omega), if_pos (hq.2 h1), dif_pos (by omega)]
      simp [h1]
    · rw [if_neg (fun e => h1 (hq.1 e))]
      by_cases h2 : k + 1 ≤ q.toNat ∧ q.toNat < k + 1 + bs.length
      · rw [dif_pos h2, dif_pos (by omega)]
        have e : q.toNat - k = q.toNat - (k + 1) + 1 := by omega
        simp [e]
      · rw [dif_neg h2, dif_neg (by omega)]

/-- A skip moves PC by 4 when taken and by 2 otherwise (42_control_flow.md R198), and changes nothing else. -/
theorem State.skipIf_eq (s : State) (c : Bool) : s.skipIf c = s.setPc (if c then s.pc + 4 else s.pc + 2) := by
  cases c
  · rfl
  · simp only [State.skipIf, State.advance, State.setPc, if_true, BitVec.add_assoc]; rfl

theorem State.top_push (s : State) (a : Word) : (s.push a).top = some a := by simp [State.top]

theorem State.top_eq_none (s : State) : s.top = none ↔ s.stack = [] := by simp [State.top]

/-- The first address above 0xFFF among base .. base + len - 1: none when every one is inside (20_memory.md R62). -/
theorem firstOutside_eq_none (base len : Nat) : firstOutside base len = none ↔ (len = 0 ∨ base + len - 1 ≤ 0xFFF) := by
  unfold firstOutside; split <;> simp_all

theorem firstOutside_eq_some (base len a : Nat) (h : firstOutside base len = some a) :
    base ≤ a ∧ a < base + len ∧ 0xFFF < a ∧ ∀ b, base ≤ b → b < a → b ≤ 0xFFF := by
  unfold firstOutside at h
  split at h
  · cases h
  · simp only [Option.some.injEq] at h
    exact ⟨by omega, by omega, by omega, fun b _ _ => by omega⟩

/-- A block instruction either faults with no other change or ends in the state given (60_exceptions.md R318). -/
theorem State.withBlock_cases (s : State) (ins : Instr) (len : Nat) (done : State) :
    (s.withBlock ins len done = .next done ∧ (len = 0 ∨ s.i.toNat + len - 1 ≤ 0xFFF)) ∨
    (∃ a, s.withBlock ins len done = .next (s.takeFault .addressOutOfRange (some (encode ins)) (some a)) ∧
      firstOutside s.i.toNat len = some a) := by
  unfold State.withBlock
  cases h : firstOutside s.i.toNat len with
  | none => exact .inl ⟨rfl, (firstOutside_eq_none _ _).1 h⟩
  | some a => exact .inr ⟨a, rfl, rfl⟩

theorem State.withBlock_of_inside (s : State) (ins : Instr) (len : Nat) (done : State)
    (h : len = 0 ∨ s.i.toNat + len - 1 ≤ 0xFFF) : s.withBlock ins len done = .next done := by
  simp [State.withBlock, (firstOutside_eq_none _ _).2 h]

/-- V[x] <- result, then the flag: what each register holds (10_state.md R22). -/
theorem State.getV_writeFlagged (s : State) (x q : Reg) (a f : Byte) :
    (s.writeFlagged x a f).getV q = if q = regF then f else if q = x then a else s.getV q := by
  simp only [State.writeFlagged, State.getV_setV, State.getV_advance]

theorem State.getV_writePlain (s : State) (x q : Reg) (a : Byte) :
    (s.writePlain x a).getV q = if q = x then a else s.getV q := by
  simp only [State.writePlain, State.getV_setV, State.getV_advance]

@[simp] theorem flagByte_true : flagByte true = 1 := rfl

@[simp] theorem flagByte_false : flagByte false = 0 := rfl

theorem State.length_regBlock (s : State) (x : Reg) : (s.regBlock x).length = x.toNat + 1 := by
  have := x.isLt
  simp [State.regBlock]; omega

theorem State.getElem_regBlock (s : State) (x : Reg) (k : Nat) (h : k < (s.regBlock x).length) :
    (s.regBlock x)[k] = s.getV (BitVec.ofNat 4 k) := by
  have hk : k < 16 := by have := x.isLt; rw [State.length_regBlock] at h; omega
  have e : (BitVec.ofNat 4 k).toNat = k := by rw [BitVec.toNat_ofNat]; omega
  simp [State.regBlock, State.getV, e]

end Sys2Proof.Machine
end

