-- ==== Sys2Proof/Laws/Memory.lean ====
section
/-! SUPPORT. The laws of memory: every operation keeps the canonical form, a read after a store to the same place gives
the byte stored, a store leaves every other place alone; the block forms; the fetch of a word. -/

namespace Sys2Proof.Machine

theorem Memory.wfFrom_mono {m : Memory} {lo lo' : Nat} (h : lo' ≤ lo) (hm : m.wfFrom lo = true) : m.wfFrom lo' = true := by
  cases m with
  | nil => rfl
  | cons c m =>
    simp only [Memory.wfFrom, Bool.and_eq_true, decide_eq_true_eq, bne_iff_ne] at hm ⊢
    exact ⟨⟨⟨h.trans hm.1.1.1, hm.1.1.2⟩, hm.1.2⟩, hm.2⟩

theorem Memory.wfFrom_put {m : Memory} {lo a : Nat} (b : Byte) (hlo : lo ≤ a) (ha : a < 4096) (hm : m.wfFrom lo = true) :
    (m.put a b).wfFrom lo = true := by
  induction m generalizing lo with
  | nil => unfold Memory.put; split <;> simp_all [Memory.wfFrom]
  | cons c m ih =>
    obtain ⟨k, c⟩ := c
    simp only [Memory.wfFrom, Bool.and_eq_true, decide_eq_true_eq, bne_iff_ne] at hm
    obtain ⟨⟨⟨h1, h2⟩, h3⟩, h4⟩ := hm
    unfold Memory.put
    split
    · split
      · simp_all [Memory.wfFrom]
      · simp_all [Memory.wfFrom]
    · split
      · split
        · exact Memory.wfFrom_mono (by omega) h4
        · simp_all [Memory.wfFrom]
      · have := ih (lo := k + 1) (by omega) h4
        simp_all [Memory.wfFrom]

/-- A store keeps the canonical form. -/
theorem Memory.wf_write {m : Memory} (a : Nat) (b : Byte) (hm : m.wf = true) : (m.write a b).wf = true := by
  unfold Memory.write
  split
  · exact Memory.wfFrom_put b (Nat.zero_le a) ‹_› hm
  · exact hm

/-- A run of stores keeps the canonical form. -/
theorem Memory.wf_writeBytes {m : Memory} (a : Nat) (bs : List Byte) (hm : m.wf = true) : (m.writeBytes a bs).wf = true := by
  induction bs generalizing m a with
  | nil => exact hm
  | cons b bs ih => exact ih (a + 1) (Memory.wf_write a b hm)

theorem Memory.wf_reset : State.reset.mem.wf = true := rfl

theorem Memory.read_of_lt_wfFrom {m : Memory} {lo a : Nat} (hm : m.wfFrom lo = true) (h : a < lo) :
    m.read a = Memory.initial a := by
  cases m with
  | nil => rfl
  | cons c m =>
    simp only [Memory.wfFrom, Bool.and_eq_true, decide_eq_true_eq] at hm
    simp only [Memory.read, if_pos (show a < c.1 by omega)]

theorem Memory.read_put {m : Memory} {lo : Nat} (a d : Nat) (b : Byte) (hm : m.wfFrom lo = true) :
    (m.put a b).read d = if d = a then b else m.read d := by
  induction m generalizing lo with
  | nil =>
    unfold Memory.put
    split <;> simp only [Memory.read] <;> grind
  | cons c m ih =>
    obtain ⟨k, c⟩ := c
    simp only [Memory.wfFrom, Bool.and_eq_true, decide_eq_true_eq, bne_iff_ne] at hm
    obtain ⟨⟨⟨h1, h2⟩, h3⟩, h4⟩ := hm
    have below := fun d (h : d < k + 1) => Memory.read_of_lt_wfFrom h4 h
    have ih := ih h4
    unfold Memory.put
    split
    · split <;> simp only [Memory.read] <;> grind
    · split
      · split <;> simp only [Memory.read] <;> grind
      · simp only [Memory.read, ih]; grind

/-- A read after a store of one byte (20_memory.md R62, R71). -/
theorem Memory.read_write {m : Memory} (hm : m.wf = true) {a : Nat} (ha : a ≤ 0xFFF) (d : Nat) (b : Byte) :
    (m.write a b).read d = if d = a then b else m.read d := by
  unfold Memory.write
  rw [if_pos (show a < 4096 by omega)]
  exact Memory.read_put a d b hm

/-- A read after a run of stores inside the array (20_memory.md R65). -/
theorem Memory.read_writeBytes (bs : List Byte) {m : Memory} (hm : m.wf = true) {a : Nat} (ha : a + bs.length ≤ 0x1000)
    (d : Nat) :
    (m.writeBytes a bs).read d =
      if h : a ≤ d ∧ d < a + bs.length then bs[d - a]'(by omega) else m.read d := by
  induction bs generalizing m a with
  | nil => simp only [Memory.writeBytes, List.length_nil]; rw [dif_neg]; omega
  | cons b bs ih =>
    simp only [List.length_cons] at ha
    simp only [Memory.writeBytes, List.length_cons]
    rw [ih (Memory.wf_write a b hm) (by omega), Memory.read_write hm (by omega)]
    by_cases h1 : d = a
    · subst d
      rw [dif_neg (by omega), if_pos rfl, dif_pos (by omega)]
      simp
    · rw [if_neg h1]
      by_cases h2 : a + 1 ≤ d ∧ d < a + 1 + bs.length
      · rw [dif_pos h2, dif_pos (by omega)]
        have e : d - a = d - (a + 1) + 1 := by omega
        simp [e]
      · rw [dif_neg h2, dif_neg (by omega)]

/-- A run of stores leaves every byte outside it alone, wherever it lies. -/
theorem Memory.read_writeBytes_outside (bs : List Byte) {m : Memory} (hm : m.wf = true) (a d : Nat)
    (h : d < a ∨ a + bs.length ≤ d) : (m.writeBytes a bs).read d = m.read d := by
  induction bs generalizing m a with
  | nil => rfl
  | cons b bs ih =>
    simp only [List.length_cons] at h
    simp only [Memory.writeBytes]
    rw [ih (Memory.wf_write a b hm) (a + 1) (by omega)]
    by_cases ha : a ≤ 0xFFF
    · rw [Memory.read_write hm ha, if_neg (by omega)]
    · rw [Memory.write, if_neg (show ¬ a < 4096 by omega)]

@[simp] theorem Memory.length_readBytes (m : Memory) (a len : Nat) : (m.readBytes a len).length = len := by
  induction len generalizing a with
  | zero => rfl
  | succ n ih => simp [Memory.readBytes, ih]

theorem Memory.getElem_readBytes (m : Memory) (a len k : Nat) (h : k < (m.readBytes a len).length) :
    (m.readBytes a len)[k] = m.read (a + k) := by
  induction len generalizing a k with
  | zero => simp at h
  | succ n ih =>
    cases k with
    | zero => rfl
    | succ k =>
      simp only [Memory.readBytes, List.getElem_cons_succ]
      rw [ih (a + 1) k (by simpa [Memory.readBytes] using h)]
      congr 1; omega

/-- The fetch of the word at `a`: both bytes inside, or the first address above 0xFFF (40_execution.md R122). -/
theorem Memory.memRead2_eq (m : Memory) (a : Nat) :
    m.memRead2 a = if a ≤ 0xFFE then .ok (wordOfBytes (m.read a) (m.read (a + 1))) else .error (max a 0x1000) := by
  unfold Memory.memRead2 Memory.memRead
  by_cases h : a ≤ 0xFFE
  · simp only [if_pos h, if_neg (show ¬ 0xFFF < a by omega), if_neg (show ¬ 0xFFF < a + 1 by omega)]
  · by_cases h2 : 0xFFF < a
    · simp only [if_neg h, if_pos h2]; congr 1; omega
    · simp only [if_neg h, if_neg h2, if_pos (show 0xFFF < a + 1 by omega)]; congr 1; omega

end Sys2Proof.Machine
end

