-- ==== Sys2Proof/Laws/FrameBuffer.lean ====
section
/-! SUPPORT. What the sprite engine does to each cell: TogglePixel flips one cell and reports whether it was on
(43_display.md R222, R224); a row and a sprite flip exactly the cells their set bits land on, each once (R225). -/

namespace Sys2Proof.Machine

theorem FrameBuffer.row_setRow (fb : FrameBuffer) (py qy : Nat) (r : BitVec 64) :
    (fb.setRow py r).row qy = if qy % 32 = py % 32 then r else fb.row qy := by
  unfold FrameBuffer.setRow FrameBuffer.row
  rw [Vector.getElem_set]
  split <;> simp_all [eq_comm]

theorem FrameBuffer.pixel_toggle (fb : FrameBuffer) (px py cx cy : Nat) :
    (fb.toggle px py).pixel cx cy =
      (fb.pixel cx cy ^^ decide (cx % 64 = px % 64 ∧ cy % 32 = py % 32)) := by
  have hx : cx % 64 < 64 := Nat.mod_lt _ (by decide)
  unfold FrameBuffer.toggle FrameBuffer.pixel
  rw [FrameBuffer.row_setRow]
  by_cases hy : cy % 32 = py % 32
  · have e : fb.row cy = fb.row py := by simp [FrameBuffer.row, hy]
    rw [if_pos hy, e]
    simp [hy, hx, eq_comm]
  · simp [hy]

@[simp] theorem togglePixel_fst (fb : FrameBuffer) (px py : Nat) : (togglePixel fb px py).1 = fb.toggle px py := rfl

/-- "Now off" after the toggle means "was on" before it (R224). -/
@[simp] theorem togglePixel_snd (fb : FrameBuffer) (px py : Nat) : (togglePixel fb px py).2 = fb.pixel px py := by
  simp [togglePixel, FrameBuffer.pixel_toggle]

theorem FrameBuffer.pixel_mod (fb : FrameBuffer) (px py : Nat) : fb.pixel (px % 64) (py % 32) = fb.pixel px py := by
  simp [FrameBuffer.pixel, FrameBuffer.row]

theorem FrameBuffer.pixel_congr (fb : FrameBuffer) {px py qx qy : Nat} (hx : px % 64 = qx % 64) (hy : py % 32 = qy % 32) :
    fb.pixel px py = fb.pixel qx qy := by
  rw [← fb.pixel_mod px, ← fb.pixel_mod qx, hx, hy]

@[simp] theorem FrameBuffer.pixel_clear (px py : Nat) : FrameBuffer.clear.pixel px py = false := by
  simp [FrameBuffer.clear, FrameBuffer.pixel, FrameBuffer.row]

/-- Two buffers with the same cells are the same buffer. -/
theorem FrameBuffer.ext_pixel {f g : FrameBuffer} (h : ∀ x y, x < 64 → y < 32 → f.pixel x y = g.pixel x y) : f = g := by
  apply Vector.ext
  intro y hy
  apply BitVec.eq_of_getLsbD_eq
  intro x hx
  have := h x y hx hy
  simpa [FrameBuffer.pixel, FrameBuffer.row, Nat.mod_eq_of_lt hx, Nat.mod_eq_of_lt hy] using this

/-- The set bit of column c among `cs` lands on the cell (cx, cy). -/
def ColumnHits (row : Byte) (xs py : Nat) (cs : List Nat) (cx cy : Nat) : Prop :=
  ∃ c ∈ cs, row.getLsbD (7 - c) = true ∧ (xs + c) % 64 = cx % 64 ∧ py % 32 = cy % 32

/-- The set bit of some column of some row lands on the cell (cx, cy), the first row at ys. -/
def RowsHit (xs ys : Nat) (rows : List Byte) (cx cy : Nat) : Prop :=
  ∃ (r : Nat) (h : r < rows.length), ColumnHits rows[r] xs (ys + r) spriteColumns cx cy

/-- One sprite row over some distinct columns: exactly the cells its set bits land on are flipped (R222, R225). -/
theorem pixel_drawColumns (row : Byte) (xs py : Nat) (cs : List Nat) (hc : ∀ c ∈ cs, c < 8) (hn : cs.Nodup)
    (fb : FrameBuffer) (cx cy : Nat) :
    ((drawColumns row xs py cs fb).1.pixel cx cy = true) ↔
      ¬ (fb.pixel cx cy = true ↔ ColumnHits row xs py cs cx cy) := by
  induction cs generalizing fb with
  | nil => simp [drawColumns, ColumnHits]
  | cons c cs ih =>
    have ih := fun fb => ih (fun c h => hc c (List.mem_cons_of_mem _ h)) (List.nodup_cons.1 hn).2 fb
    have hsplit : ColumnHits row xs py (c :: cs) cx cy ↔
        (row.getLsbD (7 - c) = true ∧ (xs + c) % 64 = cx % 64 ∧ py % 32 = cy % 32) ∨ ColumnHits row xs py cs cx cy := by
      simp [ColumnHits]
    rw [hsplit]
    by_cases hb : row.getLsbD (7 - c) = true
    · simp only [drawColumns, hb, if_true, true_and]
      rw [ih, togglePixel_fst, FrameBuffer.pixel_toggle]
      have hex : ((xs + c) % 64 = cx % 64 ∧ py % 32 = cy % 32) → ¬ ColumnHits row xs py cs cx cy := by
        rintro ⟨h1, -⟩ ⟨d, hd, -, h2, -⟩
        have := hc c List.mem_cons_self
        have := hc d (List.mem_cons_of_mem _ hd)
        have : d = c := by omega
        exact (List.nodup_cons.1 hn).1 (this ▸ hd)
      have e : decide (cx % 64 = (xs + c) % 64 ∧ cy % 32 = py % 32) = decide ((xs + c) % 64 = cx % 64 ∧ py % 32 = cy % 32) := by
        simp [eq_comm]
      rw [e]
      by_cases hcell : (xs + c) % 64 = cx % 64 ∧ py % 32 = cy % 32
      · have := hex hcell
        simp only [hcell, this, and_self, decide_true, Bool.xor_true]
        cases fb.pixel cx cy <;> simp
      · simp only [hcell, decide_false, Bool.xor_false, false_or]
    · simp only [drawColumns, hb, Bool.false_eq_true, if_false, false_and, false_or]
      exact ih fb

/-- A sprite row reports a hit exactly when a set bit landed on a cell that was on (R224). -/
theorem hit_drawColumns (row : Byte) (xs py : Nat) (cs : List Nat) (hc : ∀ c ∈ cs, c < 8) (hn : cs.Nodup)
    (fb : FrameBuffer) :
    ((drawColumns row xs py cs fb).2 = true) ↔
      ∃ c ∈ cs, row.getLsbD (7 - c) = true ∧ fb.pixel (xs + c) py = true := by
  induction cs generalizing fb with
  | nil => simp [drawColumns]
  | cons c cs ih =>
    have ih := fun fb => ih (fun c h => hc c (List.mem_cons_of_mem _ h)) (List.nodup_cons.1 hn).2 fb
    by_cases hb : row.getLsbD (7 - c) = true
    · simp only [drawColumns, hb, if_true, List.mem_cons, exists_eq_or_imp, true_and, Bool.or_eq_true, togglePixel_fst,
        togglePixel_snd, ih]
      refine or_congr Iff.rfl (exists_congr fun d => and_congr_right fun hd => and_congr_right fun _ => ?_)
      have := hc c List.mem_cons_self
      have := hc d (List.mem_cons_of_mem _ hd)
      have hne : d ≠ c := fun e => (List.nodup_cons.1 hn).1 (e ▸ hd)
      have : ¬ ((xs + d) % 64 = (xs + c) % 64) := by omega
      simp [FrameBuffer.pixel_toggle, this]
    · simp only [drawColumns, hb, Bool.false_eq_true, if_false, List.mem_cons, exists_eq_or_imp, false_and, false_or]
      exact ih fb

theorem spriteColumns_lt : ∀ c ∈ spriteColumns, c < 8 := by decide

theorem spriteColumns_nodup : spriteColumns.Nodup := by decide

theorem mem_spriteColumns (c : Nat) : c ∈ spriteColumns ↔ c < 8 := by
  simp only [spriteColumns, List.mem_cons, List.not_mem_nil, or_false]; omega

theorem rowsHit_cons (xs ys : Nat) (row : Byte) (rows : List Byte) (cx cy : Nat) :
    RowsHit xs ys (row :: rows) cx cy ↔ ColumnHits row xs ys spriteColumns cx cy ∨ RowsHit xs (ys + 1) rows cx cy := by
  constructor
  · rintro ⟨r, h, hit⟩
    cases r with
    | zero => exact .inl hit
    | succ r =>
      exact .inr ⟨r, by simpa using h, by simpa [Nat.add_comm, Nat.add_left_comm, Nat.add_assoc] using hit⟩
  · rintro (hit | ⟨r, h, hit⟩)
    · exact ⟨0, by simp, hit⟩
    · exact ⟨r + 1, by simpa using h, by simpa [Nat.add_comm, Nat.add_left_comm, Nat.add_assoc] using hit⟩

theorem ColumnHits.row_eq {row : Byte} {xs py : Nat} {cs : List Nat} {cx cy : Nat} (h : ColumnHits row xs py cs cx cy) :
    py % 32 = cy % 32 := by
  obtain ⟨_, _, _, _, e⟩ := h; exact e

/-- A sprite of at most 32 rows flips exactly the cells its set bits land on, each once (R223, R225). -/
theorem pixel_drawRows (xs : Nat) (rows : List Byte) (ys : Nat) (hl : rows.length ≤ 32) (fb : FrameBuffer) (cx cy : Nat) :
    ((drawRows xs ys rows fb).1.pixel cx cy = true) ↔ ¬ (fb.pixel cx cy = true ↔ RowsHit xs ys rows cx cy) := by
  induction rows generalizing ys fb with
  | nil => simp [drawRows, RowsHit]
  | cons row rows ih =>
    simp only [List.length_cons] at hl
    simp only [drawRows]
    rw [ih (ys + 1) (by omega), rowsHit_cons,
      pixel_drawColumns row xs ys _ spriteColumns_lt spriteColumns_nodup]
    have hex : ColumnHits row xs ys spriteColumns cx cy → ¬ RowsHit xs (ys + 1) rows cx cy := by
      rintro h1 ⟨r, hr, h2⟩
      have := h1.row_eq; have := h2.row_eq; omega
    tauto

/-- A sprite of at most 32 rows reports a hit exactly when a set bit landed on a cell that was on (R223, R224). -/
theorem hit_drawRows (xs : Nat) (rows : List Byte) (ys : Nat) (hl : rows.length ≤ 32) (fb : FrameBuffer) :
    ((drawRows xs ys rows fb).2 = true) ↔
      ∃ cx cy, RowsHit xs ys rows cx cy ∧ fb.pixel cx cy = true := by
  induction rows generalizing ys fb with
  | nil => simp [drawRows, RowsHit]
  | cons row rows ih =>
    simp only [List.length_cons] at hl
    simp only [drawRows, Bool.or_eq_true]
    rw [ih (ys + 1) (by omega), hit_drawColumns row xs ys _ spriteColumns_lt spriteColumns_nodup]
    constructor
    · rintro (⟨c, hc, hb, hp⟩ | ⟨cx, cy, hh, hp⟩)
      · exact ⟨xs + c, ys, (rowsHit_cons ..).2 (.inl ⟨c, hc, hb, rfl, rfl⟩), hp⟩
      · rw [pixel_drawColumns row xs ys _ spriteColumns_lt spriteColumns_nodup] at hp
        have hno : ¬ ColumnHits row xs ys spriteColumns cx cy := by
          intro h1
          obtain ⟨r, hr, h2⟩ := hh
          have := h1.row_eq; have := h2.row_eq; omega
        exact ⟨cx, cy, (rowsHit_cons ..).2 (.inr hh), by simpa [hno] using hp⟩
    · rintro ⟨cx, cy, hh, hp⟩
      rcases (rowsHit_cons ..).1 hh with ⟨c, hc, hb, h1, h2⟩ | hh'
      · exact .inl ⟨c, hc, hb, by rw [← hp]; exact fb.pixel_congr h1 h2⟩
      · refine .inr ⟨cx, cy, hh', ?_⟩
        rw [pixel_drawColumns row xs ys _ spriteColumns_lt spriteColumns_nodup]
        have hno : ¬ ColumnHits row xs ys spriteColumns cx cy := by
          intro h1
          obtain ⟨r, hr, h2⟩ := hh'
          have := h1.row_eq; have := h2.row_eq; omega
        simp [hno, hp]

end Sys2Proof.Machine
end

