-- ==== Sys2Proof/Laws/Frame.lean ====
section
/-! SUPPORT. The frame of each shared operation: what it leaves unchanged, part by part; the cases of a STEP before
EXECUTE; program counter arithmetic as numbers. -/

namespace Sys2Proof.Machine

@[simp] theorem toNat_add_two (w : Word) : (w + 2).toNat = (w.toNat + 2) % 65536 := by simp [BitVec.toNat_add]

@[simp] theorem toNat_add_four (w : Word) : (w + 4).toNat = (w.toNat + 4) % 65536 := by simp [BitVec.toNat_add]

theorem SameOutside.refl (c : Part → Prop) (s : State) : SameOutside c s s := by
  intro p _; cases p <;> simp [SamePart]

theorem SameOutside.mono {c d : Part → Prop} {s t : State} (h : SameOutside c s t) (hcd : ∀ p, c p → d p) :
    SameOutside d s t := fun p hp => h p (fun hc => hp (hcd p hc))

theorem sameOutside_setPc (s : State) (a : Word) : SameOutside (· = .pc) s (s.setPc a) := by
  intro p hp; cases p <;> simp [SamePart] at *

theorem sameOutside_skipIf (s : State) (c : Bool) : SameOutside (· = .pc) s (s.skipIf c) := by
  rw [State.skipIf_eq]; exact sameOutside_setPc s _

theorem sameOutside_writePlain (s : State) (x : Reg) (a : Byte) :
    SameOutside (· ∈ [.pc, .reg x]) s (s.writePlain x a) := by
  intro p hp
  cases p <;> simp [SamePart, State.writePlain, State.getV_setV] at *
  intro h; exact absurd h hp

theorem sameOutside_writeFlagged (s : State) (x : Reg) (a f : Byte) :
    SameOutside (· ∈ [.pc, .reg x, .reg regF]) s (s.writeFlagged x a f) := by
  intro p hp
  cases p <;> simp [SamePart, State.writeFlagged, State.getV_setV] at *
  simp [hp]

/-- Taking a fault changes nothing but the fault record (60_exceptions.md R318). -/
theorem haltedBy_takeFault (s : State) (k : FaultKind) (w : Option Word) (a : Option Nat) :
    HaltedBy k w a s (s.takeFault k w a) :=
  ⟨rfl, by intro p hp; cases p <;> simp [SamePart] at *⟩

@[simp] theorem State.writePlain_pc (s : State) (x : Reg) (a : Byte) : (s.writePlain x a).pc = s.pc + 2 := rfl

@[simp] theorem State.writeFlagged_pc (s : State) (x : Reg) (a f : Byte) : (s.writeFlagged x a f).pc = s.pc + 2 := rfl

theorem State.control_eq_run (s : State) : s.control = .run ↔ s.Running := by
  unfold State.control State.Running
  cases s.fault <;> cases s.paused <;> simp

theorem State.control_eq_waitKey (s : State) : s.control = .waitKey ↔ s.fault = none ∧ s.paused = true := by
  unfold State.control
  cases s.fault <;> cases s.paused <;> simp

theorem State.control_eq_halt (s : State) : s.control = .halt ↔ s.fault ≠ none := by
  unfold State.control
  cases s.fault <;> cases s.paused <;> simp

/-- What a STEP does before EXECUTE: outside RUN it ends in the same state; in RUN it faults at FETCH, faults at DECODE,
or has an instruction (40_execution.md R120 to R123). -/
theorem State.stepFront_cases (s : State) :
    (¬ s.Running ∧ s.stepFront = .error s) ∨
    (s.Running ∧ 0xFFE < s.pc.toNat ∧
      s.stepFront = .error (s.takeFault .addressOutOfRange none (some (max s.pc.toNat 0x1000)))) ∨
    (s.Running ∧ s.pc.toNat ≤ 0xFFE ∧ (∃ e, decode s.fetchWord = .error e) ∧
      s.stepFront = .error (s.takeFault .unknownOpcode (some s.fetchWord) none)) ∨
    (s.Running ∧ s.pc.toNat ≤ 0xFFE ∧ ∃ i, decode s.fetchWord = .ok i ∧ s.stepFront = .ok i) := by
  by_cases hr : s.Running
  · have hc := (State.control_eq_run s).2 hr
    have hw : wordOfBytes (s.mem.read s.pc.toNat) (s.mem.read (s.pc.toNat + 1)) = s.fetchWord := rfl
    by_cases hp : s.pc.toNat ≤ 0xFFE
    · cases hd : decode s.fetchWord with
      | error e =>
        refine .inr (.inr (.inl ⟨hr, hp, ⟨e, rfl⟩, ?_⟩))
        simp only [State.stepFront, hc, State.fetchDecode, Memory.memRead2_eq, if_pos hp, hw, hd]
      | ok i =>
        refine .inr (.inr (.inr ⟨hr, hp, i, rfl, ?_⟩))
        simp only [State.stepFront, hc, State.fetchDecode, Memory.memRead2_eq, if_pos hp, hw, hd]
    · refine .inr (.inl ⟨hr, by omega, ?_⟩)
      simp only [State.stepFront, hc, State.fetchDecode, Memory.memRead2_eq, if_neg hp]
  · refine .inl ⟨hr, ?_⟩
    have hc : s.control ≠ .run := fun h => hr ((State.control_eq_run s).1 h)
    unfold State.stepFront
    cases h : s.control <;> simp_all

end Sys2Proof.Machine
end

