-- ==== Sys2Proof/Laws/Exec.lean ====
section
/-! SUPPORT. What EXECUTE can do, said once for all instructions: it takes a fault of its own kind, or it completes, and
then each part of the state has only the writers its rule names (10_state.md R23 to R37). -/

namespace Sys2Proof.Machine

/-- The execute-phase faults, with their records and the instructions that raise them (60_exceptions.md R311). -/
inductive Faulted (s : State) : Instr → State → Prop where
  | underflow : Faulted s .ret (s.takeFault .stackUnderflow (some 0x00EE#16) none)
  | overflow (nnn : Addr) : Faulted s (.call nnn) (s.takeFault .stackOverflow (some (0x2#4 ++ nnn)) none)
  | outOfRange (i : Instr) (w : Word) (a : Nat) (ha : 0x1000 ≤ a)
      (hi : (∃ x y n, i = .drw x y n) ∨ ∃ x, i = .ldBVx x ∨ i = .ldMemVx x ∨ i = .ldVxMem x) :
      Faulted s i (s.takeFault .addressOutOfRange (some w) (some a))

/-- A completed instruction: what it can have done to each part other than the registers. -/
structure Completed (i : Instr) (s t : State) : Prop where
  fault : t.fault = s.fault
  addressReg : t.i ≠ s.i → (∃ nnn, i = .ldI nnn) ∨ ∃ x, i = .addIVx x ∨ i = .ldFVx x
  stack : t.stack = s.stack ∨ (i = .ret ∧ t.stack = s.stack.dropLast) ∨
    (s.stack.length < 16 ∧ t.stack = s.stack ++ [s.pc + 2] ∧ ∃ nnn, i = .call nnn)
  delayTimer : t.dt ≠ s.dt → ∃ x, i = .ldDtVx x
  soundTimer : t.st ≠ s.st → ∃ x, i = .ldStVx x
  display : t.fb ≠ s.fb → i = .cls ∨ ∃ x y n, i = .drw x y n
  pauseState : (t.paused = s.paused ∧ t.waitReg = s.waitReg) ∨
    ((∃ x, i = .ldVxK x) ∧ t.paused = true ∧ t.waitReg ≠ none)
  memory : t.mem = s.mem ∨ ((∃ a bs, t.mem = s.mem.writeBytes a bs) ∧ ∃ x, i = .ldBVx x ∨ i = .ldMemVx x)
  pc : t.pc.toNat = (s.pc.toNat + 2) % 65536 ∨
    (t.pc.toNat = (s.pc.toNat + 4) % 65536 ∧
      ((∃ x kk, i = .seVxKk x kk ∨ i = .sneVxKk x kk) ∨ (∃ x y n, i = .seVxVy x y n ∨ i = .sneVxVy x y n) ∨
        ∃ x, i = .skp x ∨ i = .sknp x)) ∨
    (i = .ret ∧ t.pc ∈ s.stack) ∨ (t.pc.toNat ≤ 0x10FE ∧ ∃ nnn, i = .jp nnn ∨ i = .call nnn ∨ i = .jpV0 nnn)

theorem State.withBlock_inv {s t : State} {ins : Instr} {len : Nat} {done : State}
    (h : s.withBlock ins len done = .next t) :
    t = done ∨ ∃ a, 0x1000 ≤ a ∧ t = s.takeFault .addressOutOfRange (some (encode ins)) (some a) := by
  rcases State.withBlock_cases s ins len done with ⟨e, _⟩ | ⟨a, e, ha⟩
  · rw [e] at h; cases h; exact .inl rfl
  · rw [e] at h; cases h
    unfold firstOutside at ha
    split at ha
    · cases ha
    · cases ha; exact .inr ⟨_, by omega, rfl⟩

/-- EXECUTE of any instruction: a fault of its own, or completion. -/
theorem exec_cases {i : Instr} {s t : State} (h : exec i s = .next t) : Faulted s i t ∨ Completed i s t := by
  cases i
  case ret =>
    simp only [exec, execRet] at h
    split at h
    · rename_i a e
      cases h
      have e' : s.stack.getLast? = some a := e
      refine .inr ?_
      constructor <;> simp [State.dropTop]
      exact .inr (List.mem_of_getLast? e')
    · cases h; exact .inl .underflow
  case call nnn =>
    simp only [exec, execCall] at h
    split at h
    · rename_i hl
      cases h
      refine .inr ?_
      constructor <;> simp [zextAddr] at hl ⊢
      · exact hl
      · omega
    · cases h; exact .inl (.overflow nnn)
  case drw x y n =>
    rcases State.withBlock_inv h with rfl | ⟨a, ha, rfl⟩
    · exact .inr (by constructor <;> simp [State.draw])
    · exact .inl (.outOfRange _ _ a ha (.inl ⟨_, _, _, rfl⟩))
  case ldBVx x =>
    rcases State.withBlock_inv h with rfl | ⟨a, ha, rfl⟩
    · exact .inr (by constructor <;> simp [State.store])
    · exact .inl (.outOfRange _ _ a ha (.inr ⟨x, .inl rfl⟩))
  case ldMemVx x =>
    rcases State.withBlock_inv h with rfl | ⟨a, ha, rfl⟩
    · exact .inr (by constructor <;> simp [State.store])
    · exact .inl (.outOfRange _ _ a ha (.inr ⟨x, .inr (.inl rfl)⟩))
  case ldVxMem x =>
    rcases State.withBlock_inv h with rfl | ⟨a, ha, rfl⟩
    · exact .inr (by constructor <;> simp)
    · exact .inl (.outOfRange _ _ a ha (.inr ⟨x, .inr (.inr rfl)⟩))
  case jp nnn =>
    cases h; refine .inr ?_; constructor <;> simp [zextAddr]; omega
  case jpV0 nnn =>
    cases h; refine .inr ?_
    have := nnn.isLt
    have := (s.getV reg0).isLt
    constructor <;> simp [zextAddr, zextByte]
    omega
  case seVxKk | sneVxKk | seVxVy | sneVxVy | skp | sknp =>
    all_goals
      cases h; refine .inr ?_
      rw [State.skipIf_eq]
      constructor <;> simp
      split <;> simp
  all_goals
    cases h; refine .inr ?_
    constructor <;> simp [State.writePlain, State.writeFlagged, rndWith]

end Sys2Proof.Machine
end

