-- ==== Sys2Proof/Laws/PerInstr.lean ====
section
/-! SUPPORT. One statement per instruction about its encoding, for the host's case split: the instruction's word selects
the instruction's row of the opcode map (30_encoding.md R99). -/

namespace Sys2Proof

theorem wordNnn_and (c c' : Nibble) (a a' : Addr) : wordNnn c a &&& wordNnn c' a' = wordNnn (c &&& c') (a &&& a') :=
  BitVec.and_append

theorem wordXKk_and (c c' : Nibble) (x x' : Reg) (k k' : Byte) :
    wordXKk c x k &&& wordXKk c' x' k' = wordXKk (c &&& c') (x &&& x') (k &&& k') := by
  show (c ++ x ++ k) &&& (c' ++ x' ++ k') = _
  rw [BitVec.and_append, BitVec.and_append]; rfl

theorem wordXYN_and (c c' : Nibble) (x x' y y' : Reg) (n n' : Nibble) :
    wordXYN c x y n &&& wordXYN c' x' y' n' = wordXYN (c &&& c') (x &&& x') (y &&& y') (n &&& n') := by
  show (c ++ x ++ y ++ n : BitVec (4 + 4 + 4 + 4)) &&& (c' ++ x' ++ y' ++ n' : BitVec (4 + 4 + 4 + 4)) = _
  rw [BitVec.and_append, BitVec.and_append, BitVec.and_append]; rfl

theorem and_ones4 (c : Nibble) : c &&& 15#4 = c := BitVec.and_allOnes

theorem and_ones8 (k : Byte) : k &&& 255#8 = k := BitVec.and_allOnes

/-- The rows 1nnn, 2nnn, Annn, Bnnn: class only. -/
theorem selects_nnn (c : Nibble) (bits : Word) (a : Addr) (h : wordNnn c 0 = bits) :
    (Row.mk bits 0xF000).selects (wordNnn c a) = true := by
  rw [Row.selects, show (0xF000 : Word) = wordNnn 0xF 0 by decide, wordNnn_and, ← h]
  simp [and_ones4]

theorem selects_xkk (c : Nibble) (bits : Word) (x : Reg) (kk : Byte) (h : wordXKk c 0 0 = bits) :
    (Row.mk bits 0xF000).selects (wordXKk c x kk) = true := by
  rw [Row.selects, show (0xF000 : Word) = wordXKk 0xF 0 0 by decide, wordXKk_and, ← h]
  simp [and_ones4]

theorem selects_xyn (c : Nibble) (bits : Word) (x y : Reg) (n : Nibble) (h : wordXYN c 0 0 0 = bits) :
    (Row.mk bits 0xF000).selects (wordXYN c x y n) = true := by
  rw [Row.selects, show (0xF000 : Word) = wordXYN 0xF 0 0 0 by decide, wordXYN_and, ← h]
  simp [and_ones4]

/-- The rows of class 8: class and low nibble. -/
theorem selects_xy_low (c : Nibble) (bits : Word) (x y : Reg) (n : Nibble) (h : wordXYN c 0 0 n = bits) :
    (Row.mk bits 0xF00F).selects (wordXYN c x y n) = true := by
  rw [Row.selects, show (0xF00F : Word) = wordXYN 0xF 0 0 0xF by decide, wordXYN_and, ← h]
  simp [and_ones4]

/-- The rows of classes E and F: class and low byte. -/
theorem selects_x_low (c : Nibble) (bits : Word) (x : Reg) (kk : Byte) (h : wordXKk c 0 kk = bits) :
    (Row.mk bits 0xF0FF).selects (wordXKk c x kk) = true := by
  rw [Row.selects, show (0xF0FF : Word) = wordXKk 0xF 0 0xFF by decide, wordXKk_and, ← h]
  simp [and_ones4, and_ones8]

/-- The instruction's row is in the opcode map, and the instruction's word selects it (R99). -/
def Laws.Encoding.Statement (i : Instr) : Prop := i.row ∈ opcodeMap ∧ i.row.selects (encode i) = true

theorem Laws.Encoding.cls : Laws.Encoding.Statement (.cls) :=
  ⟨by simp only [Instr.row]; decide, by decide⟩

theorem Laws.Encoding.ret : Laws.Encoding.Statement (.ret) :=
  ⟨by simp only [Instr.row]; decide, by decide⟩

theorem Laws.Encoding.jp (nnn : Addr) : Laws.Encoding.Statement (.jp nnn) :=
  ⟨by simp only [Instr.row]; decide, selects_nnn _ _ nnn (by decide)⟩

theorem Laws.Encoding.call (nnn : Addr) : Laws.Encoding.Statement (.call nnn) :=
  ⟨by simp only [Instr.row]; decide, selects_nnn _ _ nnn (by decide)⟩

theorem Laws.Encoding.seVxKk (x : Reg) (kk : Byte) : Laws.Encoding.Statement (.seVxKk x kk) :=
  ⟨by simp only [Instr.row]; decide, selects_xkk _ _ x kk (by decide)⟩

theorem Laws.Encoding.sneVxKk (x : Reg) (kk : Byte) : Laws.Encoding.Statement (.sneVxKk x kk) :=
  ⟨by simp only [Instr.row]; decide, selects_xkk _ _ x kk (by decide)⟩

theorem Laws.Encoding.seVxVy (x y : Reg) (n : Nibble) : Laws.Encoding.Statement (.seVxVy x y n) :=
  ⟨by simp only [Instr.row]; decide, selects_xyn _ _ x y n (by decide)⟩

theorem Laws.Encoding.ldVxKk (x : Reg) (kk : Byte) : Laws.Encoding.Statement (.ldVxKk x kk) :=
  ⟨by simp only [Instr.row]; decide, selects_xkk _ _ x kk (by decide)⟩

theorem Laws.Encoding.addVxKk (x : Reg) (kk : Byte) : Laws.Encoding.Statement (.addVxKk x kk) :=
  ⟨by simp only [Instr.row]; decide, selects_xkk _ _ x kk (by decide)⟩

theorem Laws.Encoding.ldVxVy (x y : Reg) : Laws.Encoding.Statement (.ldVxVy x y) :=
  ⟨by simp only [Instr.row]; decide, selects_xy_low _ _ x y _ (by decide)⟩

theorem Laws.Encoding.orVxVy (x y : Reg) : Laws.Encoding.Statement (.orVxVy x y) :=
  ⟨by simp only [Instr.row]; decide, selects_xy_low _ _ x y _ (by decide)⟩

theorem Laws.Encoding.andVxVy (x y : Reg) : Laws.Encoding.Statement (.andVxVy x y) :=
  ⟨by simp only [Instr.row]; decide, selects_xy_low _ _ x y _ (by decide)⟩

theorem Laws.Encoding.xorVxVy (x y : Reg) : Laws.Encoding.Statement (.xorVxVy x y) :=
  ⟨by simp only [Instr.row]; decide, selects_xy_low _ _ x y _ (by decide)⟩

theorem Laws.Encoding.addVxVy (x y : Reg) : Laws.Encoding.Statement (.addVxVy x y) :=
  ⟨by simp only [Instr.row]; decide, selects_xy_low _ _ x y _ (by decide)⟩

theorem Laws.Encoding.subVxVy (x y : Reg) : Laws.Encoding.Statement (.subVxVy x y) :=
  ⟨by simp only [Instr.row]; decide, selects_xy_low _ _ x y _ (by decide)⟩

theorem Laws.Encoding.shr (x y : Reg) : Laws.Encoding.Statement (.shr x y) :=
  ⟨by simp only [Instr.row]; decide, selects_xy_low _ _ x y _ (by decide)⟩

theorem Laws.Encoding.subnVxVy (x y : Reg) : Laws.Encoding.Statement (.subnVxVy x y) :=
  ⟨by simp only [Instr.row]; decide, selects_xy_low _ _ x y _ (by decide)⟩

theorem Laws.Encoding.shl (x y : Reg) : Laws.Encoding.Statement (.shl x y) :=
  ⟨by simp only [Instr.row]; decide, selects_xy_low _ _ x y _ (by decide)⟩

theorem Laws.Encoding.sneVxVy (x y : Reg) (n : Nibble) : Laws.Encoding.Statement (.sneVxVy x y n) :=
  ⟨by simp only [Instr.row]; decide, selects_xyn _ _ x y n (by decide)⟩

theorem Laws.Encoding.ldI (nnn : Addr) : Laws.Encoding.Statement (.ldI nnn) :=
  ⟨by simp only [Instr.row]; decide, selects_nnn _ _ nnn (by decide)⟩

theorem Laws.Encoding.jpV0 (nnn : Addr) : Laws.Encoding.Statement (.jpV0 nnn) :=
  ⟨by simp only [Instr.row]; decide, selects_nnn _ _ nnn (by decide)⟩

theorem Laws.Encoding.rnd (x : Reg) (kk : Byte) : Laws.Encoding.Statement (.rnd x kk) :=
  ⟨by simp only [Instr.row]; decide, selects_xkk _ _ x kk (by decide)⟩

theorem Laws.Encoding.drw (x y : Reg) (n : Nibble) : Laws.Encoding.Statement (.drw x y n) :=
  ⟨by simp only [Instr.row]; decide, selects_xyn _ _ x y n (by decide)⟩

theorem Laws.Encoding.skp (x : Reg) : Laws.Encoding.Statement (.skp x) :=
  ⟨by simp only [Instr.row]; decide, selects_x_low _ _ x _ (by decide)⟩

theorem Laws.Encoding.sknp (x : Reg) : Laws.Encoding.Statement (.sknp x) :=
  ⟨by simp only [Instr.row]; decide, selects_x_low _ _ x _ (by decide)⟩

theorem Laws.Encoding.ldVxDt (x : Reg) : Laws.Encoding.Statement (.ldVxDt x) :=
  ⟨by simp only [Instr.row]; decide, selects_x_low _ _ x _ (by decide)⟩

theorem Laws.Encoding.ldVxK (x : Reg) : Laws.Encoding.Statement (.ldVxK x) :=
  ⟨by simp only [Instr.row]; decide, selects_x_low _ _ x _ (by decide)⟩

theorem Laws.Encoding.ldDtVx (x : Reg) : Laws.Encoding.Statement (.ldDtVx x) :=
  ⟨by simp only [Instr.row]; decide, selects_x_low _ _ x _ (by decide)⟩

theorem Laws.Encoding.ldStVx (x : Reg) : Laws.Encoding.Statement (.ldStVx x) :=
  ⟨by simp only [Instr.row]; decide, selects_x_low _ _ x _ (by decide)⟩

theorem Laws.Encoding.addIVx (x : Reg) : Laws.Encoding.Statement (.addIVx x) :=
  ⟨by simp only [Instr.row]; decide, selects_x_low _ _ x _ (by decide)⟩

theorem Laws.Encoding.ldFVx (x : Reg) : Laws.Encoding.Statement (.ldFVx x) :=
  ⟨by simp only [Instr.row]; decide, selects_x_low _ _ x _ (by decide)⟩

theorem Laws.Encoding.ldBVx (x : Reg) : Laws.Encoding.Statement (.ldBVx x) :=
  ⟨by simp only [Instr.row]; decide, selects_x_low _ _ x _ (by decide)⟩

theorem Laws.Encoding.ldMemVx (x : Reg) : Laws.Encoding.Statement (.ldMemVx x) :=
  ⟨by simp only [Instr.row]; decide, selects_x_low _ _ x _ (by decide)⟩

theorem Laws.Encoding.ldVxMem (x : Reg) : Laws.Encoding.Statement (.ldVxMem x) :=
  ⟨by simp only [Instr.row]; decide, selects_x_low _ _ x _ (by decide)⟩

end Sys2Proof
end

