-- ==== Sys2Proof/Tests/Slice0.lean ====
section
/-! SUPPORT. The model's own tests. Every expected result stands in spec/95_test_vectors.md (the vector's id is given)
or in the rule named; none was taken from the model. -/

namespace Sys2Proof.Tests

open Sys2Proof.Machine

/-- One STEP with the word `w` at PC, and a look at the state after it. -/
def afterWord {α : Type} (w : Nat) (s : State) (look : State → α) : Option α :=
  match step (s.withFetchWord 16 w) with
  | .next t => some (look t)
  | .fault _ => none
  | .refused _ => none

/-- One STEP without placing a word. -/
def afterStep {α : Type} (s : State) (look : State → α) : Option α :=
  match step s with
  | .next t => some (look t)
  | .fault _ => none
  | .refused _ => none

/-- The reset state with two registers set. -/
def regs2 (r : Reg) (a : Byte) (q : Reg) (b : Byte) : State := (State.reset.setV r a).setV q b

/-- The reset state with I set and bytes stored there. -/
def memAt (i : Word) (bytes : List Byte) : State := (State.reset.setI i).store i.toNat bytes

/-- Two registers of a state. -/
def look2 (r q : Reg) (s : State) : Byte × Byte := (s.getV r, s.getV q)

/-! Well-formedness: a term each check refuses (R94 to R97, R100; R103; R320). -/

theorem test_legal_refuses_sys : legalWord 0x0123 = false := by decide
theorem test_legal_refuses_low_byte_E0 : legalWord 0x01E0 = false := by decide
theorem test_legal_refuses_class8 : legalWord 0x8008 = false ∧ legalWord 0x800F = false := by decide
theorem test_legal_refuses_classE : legalWord 0xE000 = false ∧ legalWord 0xE09F = false := by decide
theorem test_legal_refuses_classF : legalWord 0xF030 = false ∧ legalWord 0xFFFF = false := by decide
theorem test_legal_accepts : legalWord 0x00E0 = true ∧ legalWord 0x5011 = true := by decide
theorem test_assembled_refuses_n :
    (Instr.seVxVy 0 1 1).assembled = false ∧ (Instr.sneVxVy 0 1 0xF).assembled = false := by decide
theorem test_image_refuses_3585 : imageFits (List.replicate 3585 0) = false := by
  rw [imageFits, List.length_replicate]; decide
theorem test_image_accepts_3584 : imageFits (List.replicate 3584 0) = true := by
  rw [imageFits, List.length_replicate]; decide

/-! Decoding: a word of every row of R99, written out from its pattern. -/

theorem test_decode_display_control :
    decode 0x00E0 = .ok .cls ∧ decode 0x00EE = .ok .ret ∧ decode 0x1ABC = .ok (.jp 0xABC) ∧
    decode 0x2345 = .ok (.call 0x345) ∧ decode 0xB7FE = .ok (.jpV0 0x7FE) ∧ decode 0xD125 = .ok (.drw 1 2 5) := by decide
theorem test_decode_skips :
    decode 0x3C5A = .ok (.seVxKk 0xC 0x5A) ∧ decode 0x4DA5 = .ok (.sneVxKk 0xD 0xA5) ∧
    decode 0x5AB1 = .ok (.seVxVy 0xA 0xB 1) ∧ decode 0x9CDF = .ok (.sneVxVy 0xC 0xD 0xF) ∧
    decode 0xE59E = .ok (.skp 5) ∧ decode 0xE6A1 = .ok (.sknp 6) := by decide
theorem test_decode_moves :
    decode 0x637F = .ok (.ldVxKk 3 0x7F) ∧ decode 0x7F02 = .ok (.addVxKk 0xF 2) ∧ decode 0x8120 = .ok (.ldVxVy 1 2) ∧
    decode 0xC30F = .ok (.rnd 3 0x0F) := by decide
theorem test_decode_class8 :
    decode 0x8AB1 = .ok (.orVxVy 0xA 0xB) ∧ decode 0x8AB2 = .ok (.andVxVy 0xA 0xB) ∧
    decode 0x8AB3 = .ok (.xorVxVy 0xA 0xB) ∧ decode 0x8AB4 = .ok (.addVxVy 0xA 0xB) ∧
    decode 0x8AB5 = .ok (.subVxVy 0xA 0xB) ∧ decode 0x8AB6 = .ok (.shr 0xA 0xB) ∧
    decode 0x8AB7 = .ok (.subnVxVy 0xA 0xB) ∧ decode 0x8ABE = .ok (.shl 0xA 0xB) := by decide
theorem test_decode_classF :
    decode 0xF107 = .ok (.ldVxDt 1) ∧ decode 0xF20A = .ok (.ldVxK 2) ∧ decode 0xF315 = .ok (.ldDtVx 3) ∧
    decode 0xF418 = .ok (.ldStVx 4) ∧ decode 0xF51E = .ok (.addIVx 5) ∧ decode 0xF629 = .ok (.ldFVx 6) ∧
    decode 0xF733 = .ok (.ldBVx 7) ∧ decode 0xF855 = .ok (.ldMemVx 8) ∧ decode 0xF965 = .ok (.ldVxMem 9) ∧
    decode 0xA123 = .ok (.ldI 0x123) := by decide
/-- UO1 to UO6. -/
theorem test_decode_illegal :
    decode 0xFFFF = .error (.unknownOpcode 0xFFFF) ∧ decode 0x0123 = .error (.unknownOpcode 0x0123) ∧
    decode 0x01E0 = .error (.unknownOpcode 0x01E0) ∧ decode 0x800F = .error (.unknownOpcode 0x800F) ∧
    decode 0xE09F = .error (.unknownOpcode 0xE09F) ∧ decode 0xF075 = .error (.unknownOpcode 0xF075) := by decide
/-- R63: bytes 0x80, 0x14 are the word 0x8014. -/
theorem test_decode_bytes :
    decodeBytes [0x80, 0x14, 0x55] = .ok (.addVxVy 0 1, [0x55]) ∧ decodeBytes [0x80] = .error (.truncated [0x80]) := by decide
theorem test_decode_table_word : decodeTableWord 16 0xF265 = some (.ldVxMem 2) ∧ decodeTableWord 16 0x0000 = none := by decide
theorem test_encode :
    encode (.addVxVy 0 1) = 0x8014 ∧ encode (.ldVxKk 0 0x0A) = 0x600A ∧ encode (.drw 0 1 5) = 0xD015 ∧
    encode (.seVxVy 0 1 1) = 0x5011 ∧ encode (.ldMemVx 2) = 0xF255 := by decide

/-! ALU: vectors AL1 to AL33. -/

/-- AL1. -/
theorem test_ldVxKk : afterWord 0x637F State.reset (fun t => (t.getV 3, t.pc)) = some (0x7F, 0x202) := by decide
/-- AL2. -/
theorem test_ldVxVy : afterWord 0x8120 (State.reset.setV 2 0x12) (·.getV 1) = some 0x12 := by decide
/-- AL3. -/
theorem test_addVxKk_no_flag : afterWord 0x7001 (regs2 0 0xFF 0xF 0x55) (look2 0 0xF) = some (0x00, 0x55) := by decide
/-- AL4. -/
theorem test_addVxKk_on_vf : afterWord 0x7F02 (State.reset.setV 0xF 0xFF) (·.getV 0xF) = some 0x01 := by decide
/-- AL5. -/
theorem test_or : afterWord 0x8011 ((regs2 0 0xF0 1 0x0F).setV 0xF 0x77) (look2 0 0xF) = some (0xFF, 0x77) := by decide
/-- AL6. -/
theorem test_and : afterWord 0x8012 (regs2 0 0xF0 1 0x3C) (·.getV 0) = some 0x30 := by decide
/-- AL7. -/
theorem test_xor : afterWord 0x8013 (regs2 0 0xFF 1 0x0F) (·.getV 0) = some 0xF0 := by decide
/-- AL8. -/
theorem test_xor_same : afterWord 0x8443 (State.reset.setV 4 0x5A) (·.getV 4) = some 0x00 := by decide
/-- AL12. -/
theorem test_add_flag_last : afterWord 0x8F14 (regs2 0xF 0xFF 1 0x01) (·.getV 0xF) = some 0x01 := by decide
/-- AL13. -/
theorem test_add_old_vf : afterWord 0x80F4 (regs2 0 0x10 0xF 0xF0) (look2 0 0xF) = some (0x00, 0x01) := by decide
/-- AL16. -/
theorem test_sub_borrow : afterWord 0x8015 (regs2 0 0x05 1 0x0A) (look2 0 0xF) = some (0xFB, 0x00) := by decide
/-- AL17. -/
theorem test_sub_strict : afterWord 0x8015 (regs2 0 0x05 1 0x05) (look2 0 0xF) = some (0x00, 0x00) := by decide
/-- AL22. -/
theorem test_shr_ignores_y : afterWord 0x8016 (regs2 0 0xFF 1 0x00) (look2 0 0xF) = some (0x7F, 0x01) := by decide
/-- AL23. -/
theorem test_shr_on_vf : afterWord 0x8F06 (State.reset.setV 0xF 0x03) (·.getV 0xF) = some 0x01 := by decide
/-- AL24. -/
theorem test_subn : afterWord 0x8017 (regs2 0 0x05 1 0x0A) (look2 0 0xF) = some (0x05, 0x01) := by decide
/-- AL26. -/
theorem test_subn_strict : afterWord 0x8017 (regs2 0 0x33 1 0x33) (look2 0 0xF) = some (0x00, 0x00) := by decide
/-- AL27. -/
theorem test_shl_masked_flag : afterWord 0x800E (State.reset.setV 0 0x81) (look2 0 0xF) = some (0x02, 0x80) := by decide
/-- AL30. -/
theorem test_shl_on_vf : afterWord 0x8F0E (State.reset.setV 0xF 0x7F) (·.getV 0xF) = some 0x00 := by decide
/-- AL31, AL33: the draw given. -/
theorem test_rnd_with :
    (rndWith 0xAB 3 0x0F State.reset).getV 3 = 0x0B ∧ (rndWith 0x5C 3 0xFF State.reset).getV 3 = 0x5C := by decide
/-- AL32: kk = 0x00 gives 0x00 whatever the draw. -/
theorem test_rnd_zero_mask (r : Byte) : (rndWith r 3 0x00 (State.reset.setV 3 0x77)).getV 3 = 0x00 := by
  simp [rndWith, State.writePlain, State.setV, State.getV, Regs.write]

/-! Control flow: vectors CF1 to CF16. -/

/-- CF1. -/
theorem test_jp : afterWord 0x1ABC State.reset (·.pc) = some 0xABC := by decide
/-- CF2. -/
theorem test_call : afterWord 0x2300 State.reset (fun t => (t.stack, t.pc)) = some ([0x202], 0x300) := by decide
/-- CF3. -/
theorem test_call_overflow :
    afterWord 0x2300 ((State.reset.setPc 0x200).push 1 |> fun s => { s with stack := List.replicate 16 0x202 })
      (fun t => (t.fault, t.stack.length, t.pc)) = some (some ⟨.stackOverflow, some 0x2300, 0x200, none⟩, 16, 0x200) := by decide
/-- CF4. -/
theorem test_ret : afterWord 0x00EE ((State.reset.setPc 0x300).push 0x202) (fun t => (t.stack, t.pc)) = some ([], 0x202) := by decide
/-- CF5. -/
theorem test_ret_underflow : afterWord 0x00EE State.reset (fun t => (t.fault, t.pc))
    = some (some ⟨.stackUnderflow, some 0x00EE, 0x200, none⟩, 0x200) := by decide
/-- CF6. -/
theorem test_seVxKk : afterWord 0x3005 (State.reset.setV 0 5) (·.pc) = some 0x204 ∧
    afterWord 0x3006 (State.reset.setV 0 5) (·.pc) = some 0x202 := by decide
/-- CF7. -/
theorem test_sneVxKk : afterWord 0x4005 (State.reset.setV 0 5) (·.pc) = some 0x202 ∧
    afterWord 0x4006 (State.reset.setV 0 5) (·.pc) = some 0x204 := by decide
/-- CF8, CF9. -/
theorem test_seVxVy : afterWord 0x5011 (regs2 0 7 1 7) (·.pc) = some 0x204 ∧
    afterWord 0x5010 (regs2 0 7 1 8) (·.pc) = some 0x202 := by decide
/-- CF10, CF11. -/
theorem test_sneVxVy : afterWord 0x9010 (regs2 0 7 1 8) (·.pc) = some 0x204 ∧
    afterWord 0x9000 (State.reset.setV 0 7) (·.pc) = some 0x202 := by decide
/-- CF12, CF13. -/
theorem test_jpV0 : afterWord 0xB300 (State.reset.setV 0 0x10) (·.pc) = some 0x310 ∧
    afterWord 0xBFFF (State.reset.setV 0 0xFF) (·.pc) = some 0x10FE := by decide
/-- CF13, CF15: a fetch above 0xFFE. -/
theorem test_fetch_out_of_range :
    afterStep (State.reset.setPc 0x10FE) (·.fault) = some (some ⟨.addressOutOfRange, none, 0x10FE, some 0x10FE⟩) ∧
    afterStep (State.reset.setPc 0xFFF) (·.fault) = some (some ⟨.addressOutOfRange, none, 0xFFF, some 0x1000⟩) := by decide
/-- UO1. -/
theorem test_unknown_opcode : afterWord 0xFFFF State.reset (fun t => (t.fault, t.pc))
    = some (some ⟨.unknownOpcode, some 0xFFFF, 0x200, none⟩, 0x200) := by decide

/-! Display: vectors DR1 to DR11. -/

/-- The columns that are on in row y. -/
def onIn (t : State) (y : Nat) : List Nat := (List.range 64).filter (fun x => t.fb.pixel x y)

/-- DR1. -/
theorem test_cls : afterWord 0x00E0 ((State.reset.setFb (FrameBuffer.toggle State.reset.fb 63 31)).setV 0xF 9)
    (fun t => (t.fb.pixel 63 31, t.getV 0xF)) = some (false, 9) := by decide
/-- DR2. -/
theorem test_drw_glyph0 : afterWord 0xD015 State.reset
    (fun t => (onIn t 0, onIn t 1, onIn t 4, onIn t 5, t.getV 0xF)) = some ([0, 1, 2, 3], [0, 3], [0, 1, 2, 3], [], 0) := by decide
/-- DR4. -/
theorem test_drw_wraps : afterWord 0xD012 (((memAt 0x300 [0xC0, 0xC0]).setV 0 0x3E).setV 1 0x1F)
    (fun t => (onIn t 31, onIn t 0, t.getV 0xF)) = some ([62, 63], [62, 63], 0) := by decide
/-- DR8. -/
theorem test_drw_collision : afterWord 0xD011 ((memAt 0x300 [0xC0]).setFb (FrameBuffer.toggle State.reset.fb 0 0))
    (fun t => (onIn t 0, t.getV 0xF)) = some ([1], 1) := by decide
/-- DR9. -/
theorem test_drw_latches_vf : afterWord 0xDF11 ((memAt 0x300 [0x80]).setV 0xF 5)
    (fun t => (onIn t 0, t.getV 0xF)) = some ([5], 0) := by decide
/-- DR10. -/
theorem test_drw_out_of_range : afterWord 0xD012 (State.reset.setI 0xFFF) (·.fault)
    = some (some ⟨.addressOutOfRange, some 0xD012, 0x200, some 0x1000⟩) := by decide

/-! Keys and timers: vectors KT1 to KT14. -/

/-- KT1, KT3. -/
theorem test_skp : afterWord 0xE09E ((State.reset.setV 0 5).setKeys 0x0020) (·.pc) = some 0x204 ∧
    afterWord 0xE09E ((State.reset.setV 0 0x10).setKeys 0xFFFF) (·.pc) = some 0x202 := by decide
/-- KT2, KT3. -/
theorem test_sknp : afterWord 0xE0A1 (State.reset.setV 0 5) (·.pc) = some 0x204 ∧
    afterWord 0xE0A1 ((State.reset.setV 0 0x10).setKeys 0xFFFF) (·.pc) = some 0x204 := by decide
/-- KT4, KT7. -/
theorem test_key_wait : afterWord 0xF30A State.reset (fun t => (t.paused, t.waitReg, t.pc)) = some (true, some 3, 0x202) ∧
    afterWord 0xF30A State.reset (fun t => ((t.keyPress 0xB).getV 3, (t.keyPress 0xB).paused, (t.keyPress 0xB).waitReg))
      = some (0x0B, false, none) := by decide
/-- KT5, KT6. -/
theorem test_wait_holds : afterStep (State.reset.startWait 3) (· == State.reset.startWait 3) = some true ∧
    ((State.reset.startWait 3).setDt 5).tick.dt = 5 := by decide
/-- KT9. -/
theorem test_ldVxDt : afterWord 0xF107 (State.reset.setDt 0x3C) (·.getV 1) = some 0x3C := by decide
/-- KT10. -/
theorem test_ldDtVx : afterWord 0xF015 (State.reset.setV 0 0x3C) (·.dt) = some 0x3C := by decide
/-- KT11. -/
theorem test_ldStVx : afterWord 0xF018 (State.reset.setV 0 2) (fun t => (t.st, t.soundOut)) = some (2, true) := by decide
/-- KT13, KT12. -/
theorem test_tick : (State.reset.setSt 3).tick = State.reset.setSt 2 ∧ (State.reset.setSt 1).tick.soundOut = false := by decide
/-- KT14. -/
theorem test_tick_halted : ((State.reset.setDt 5).takeFault .unknownOpcode (some 0) none).tick.dt = 5 := by decide

/-! Address register and memory: vectors IM1 to IM14. -/

/-- IM1. -/
theorem test_ldI : afterWord 0xA123 State.reset (·.i) = some 0x0123 := by decide
/-- IM2, IM3. -/
theorem test_addIVx : afterWord 0xF21E ((State.reset.setI 0x300).setV 2 0x10) (·.i) = some 0x310 ∧
    afterWord 0xF01E ((State.reset.setI 0xFFFF).setV 0 2) (fun t => (t.i, t.getV 0xF)) = some (1, 0) := by decide
/-- IM4. -/
theorem test_ldFVx : afterWord 0xF029 (State.reset.setV 0 0x0F) (·.i) = some 0x004B ∧
    afterWord 0xF029 (State.reset.setV 0 0xFF) (·.i) = some 0x04FB := by decide
/-- IM5. -/
theorem test_bcd : afterWord 0xF033 ((State.reset.setI 0x300).setV 0 0x9C) (fun t => t.mem.readBytes 0x300 3)
    = some [1, 5, 6] := by decide
/-- IM7. -/
theorem test_bcd_out_of_range : afterWord 0xF033 ((State.reset.setI 0xFFE).setV 0 0x10)
    (fun t => (t.fault, t.mem.read 0xFFE)) = some (some ⟨.addressOutOfRange, some 0xF033, 0x200, some 0x1000⟩, 0) := by decide
/-- IM9. -/
theorem test_store_block : afterWord 0xF255 (((regs2 0 0x11 1 0x22).setV 2 0x33).setI 0x300)
    (fun t => (t.mem.readBytes 0x300 4, t.i)) = some ([0x11, 0x22, 0x33, 0], 0x300) := by decide
/-- IM14. -/
theorem test_store_out_of_range : afterWord 0xFF55 (State.reset.setI 0xFF1) (·.fault)
    = some (some ⟨.addressOutOfRange, some 0xFF55, 0x200, some 0x1000⟩) := by decide
/-- IM11. -/
theorem test_load_block : afterWord 0xF265 ((memAt 0x300 [2, 5, 4, 9]).setV 3 7)
    (fun t => (t.getV 0, t.getV 1, t.getV 2, t.getV 3, t.i)) = some (2, 5, 4, 7, 0x300) := by decide
/-- IM12. -/
theorem test_load_all : afterWord 0xFF65 (memAt 0x300 [0, 1, 2, 3, 4, 5, 6, 7, 8, 9, 10, 11, 12, 13, 14, 15])
    (look2 0xF 9) = some (0xF, 9) := by decide

/-! The host's inputs. -/

/-- Program P1 of 95_test_vectors.md is placed by LOAD at 0x200 (R342), and its first STEP runs. -/
theorem test_load_program : (State.reset.load [0x60, 0x0A]).1 = .loaded ∧
    afterStep (State.reset.load [0x60, 0x0A]).2 (fun t => (t.getV 0, t.pc)) = some (0x0A, 0x202) := by decide
/-- R320, R316. -/
theorem test_load_refused :
    ((State.reset.takeFault .unknownOpcode (some 0) none).load [0x60]).1 = .refusedHalted := by decide
theorem test_load_too_large : State.reset.load (List.replicate 3585 0) = (.programTooLarge, State.reset) := by
  rw [State.load, show State.reset.fault.isSome = false by decide, test_image_refuses_3585]; decide

/-! Witnesses: for every statement with hypotheses, a concrete state and operands that meet them together, at the
boundaries of the ranges its clauses speak of. -/

/-- The reset state with the word `w` at PC. -/
def runAt (w : Nat) : State := State.reset.withFetchWord 16 w

/-- A block that waits for V3. -/
def waiting : State := State.reset.startWait 3

/-- A block halted by the word 0xFFFF. -/
def halted : State := State.reset.takeFault .unknownOpcode (some 0xFFFF) none

/-- A stack of n return addresses. -/
def stackOf (n : Nat) : State := { State.reset with stack := List.replicate n 0x202 }

theorem witness_inv_running : (runAt 0x600A).Inv ∧ ∃ t, step (runAt 0x600A) = .next t :=
  ⟨⟨by decide, ⟨by decide, by intro a h; cases h⟩, by decide,
    ⟨fun _ => by decide, fun h => absurd rfl h⟩, by intro f h; cases h⟩, _, rfl⟩
theorem witness_inv_waiting : waiting.Inv ∧ ∃ t, step waiting = .next t :=
  ⟨⟨by decide, ⟨by decide, by intro a h; cases h⟩, by decide,
    ⟨fun _ => by decide, fun h => absurd rfl h⟩, by intro f h; cases h⟩, _, rfl⟩
theorem witness_inv_halted : halted.Inv ∧ ∃ t, step halted = .next t :=
  ⟨⟨by decide, ⟨by decide, by intro a h; cases h⟩, by decide,
    ⟨(fun h => nomatch h), (fun _ => rfl)⟩,
    by intro f h; cases h; exact ⟨⟨⟨0xFFFF, rfl, by decide⟩, rfl⟩, rfl⟩⟩, _, rfl⟩
/-- The hypotheses of HostInputsKeepInvariant, for an input of each kind. -/
theorem witness_host_inputs : ∀ inp ∈ [Input.reset, .load [0x60, 0x0A], .tick, .keyPress 0xB, .setKeys 0x0020],
    inp ≠ .step ∧ waiting.Inv ∧ ∃ t, transition inp waiting = .next t := by
  intro inp h
  refine ⟨?_, witness_inv_waiting.1, ?_⟩
  · intro e; subst e; revert h; decide
  · cases inp <;> exact ⟨_, rfl⟩
theorem witness_decodes : decode 0xD015 = .ok (.drw 0 1 5) ∧ decode 0x9CDF = .ok (.sneVxVy 0xC 0xD 0xF) := by decide
theorem witness_row_selects : (⟨0x8004, 0xF00F⟩ : Row) ∈ opcodeMap ∧ (⟨0x8004, 0xF00F⟩ : Row).selects 0x8014 = true := by decide
theorem witness_StepRunsDecoded : (runAt 0x8014).Running ∧ (runAt 0x8014).pc.toNat ≤ 0xFFE ∧
    decode (runAt 0x8014).fetchWord = .ok (.addVxVy 0 1) := by decide
theorem witness_StepRunsDecoded_last_pc :
    let s := (State.reset.setPc 0xFFE).withFetchWord 16 0x8014
    s.Running ∧ s.pc.toNat ≤ 0xFFE ∧ decode s.fetchWord = .ok (.addVxVy 0 1) := by decide
theorem witness_waiting : waiting.fault = none ∧ waiting.paused = true ∧ waiting.waitReg = some 3 ∧
    waiting.control = .waitKey := by decide
theorem witness_halted : halted.fault ≠ none ∧ ∃ t, transition .reset halted = .next t := ⟨by decide, _, rfl⟩
theorem witness_running : State.reset.fault = none ∧ State.reset.paused = false ∧ State.reset.control = .run := by decide
/-- The last PC that fetches, the first that does not, and one above the array. -/
theorem witness_fetch_bounds : (State.reset.setPc 0xFFE).pc.toNat ≤ 0xFFE ∧
    ((State.reset.setPc 0xFFF).Running ∧ 0xFFE < (State.reset.setPc 0xFFF).pc.toNat) ∧
    ((State.reset.setPc 0x10FE).Running ∧ 0xFFE < (State.reset.setPc 0x10FE).pc.toNat) := by decide
theorem witness_UnknownOpcodeHalts : (runAt 0xFFFF).Running ∧ (runAt 0xFFFF).pc.toNat ≤ 0xFFE ∧
    legalWord (runAt 0xFFFF).fetchWord = false := by decide
/-- A faulting STEP of each phase: FETCH, DECODE, EXECUTE. -/
theorem witness_FaultsAreAllOrNothing : ∀ s ∈ [State.reset.setPc 0xFFF, runAt 0xFFFF, runAt 0x00EE],
    s.fault = none ∧ ∃ t, step s = .next t ∧ t.fault ≠ none := by
  simp only [List.forall_mem_cons]
  exact ⟨⟨rfl, _, rfl, by decide⟩, ⟨rfl, _, rfl, by decide⟩, ⟨rfl, _, rfl, by decide⟩, by intro s h; cases h⟩
/-- A STEP for each kind of fault, and UsesOutside for each form that can meet it. -/
theorem witness_FaultsExactlyWhen :
    (∃ t, step (runAt 0xFFFF) = .next t ∧ t.fault.map (·.kind) = some .unknownOpcode) ∧
    (∃ t, step (runAt 0x00EE) = .next t ∧ t.fault.map (·.kind) = some .stackUnderflow) ∧
    (∃ t, step ((stackOf 16).withFetchWord 16 0x2300) = .next t ∧ t.fault.map (·.kind) = some .stackOverflow) ∧
    (∃ t, step (State.reset.setPc 0xFFF) = .next t ∧ t.fault.map (·.kind) = some .addressOutOfRange) ∧
    UsesOutside (State.reset.setI 0xFFF) (.drw 0 1 2) ∧ UsesOutside (State.reset.setI 0xFFE) (.ldBVx 0) ∧
    UsesOutside (State.reset.setI 0xFF1) (.ldMemVx 0xF) ∧ UsesOutside (State.reset.setI 0xFF1) (.ldVxMem 0xF) :=
  ⟨⟨_, rfl, by decide⟩, ⟨_, rfl, by decide⟩, ⟨_, rfl, by decide⟩, ⟨_, rfl, by decide⟩,
   .inl ⟨0, 1, 2, rfl, by decide⟩, .inr (.inl ⟨0, rfl, by decide⟩), .inr (.inr ⟨0xF, .inl rfl, by decide⟩),
   .inr (.inr ⟨0xF, .inr rfl, by decide⟩)⟩
/-- A running block whose next fetch is outside the array: after JP 0xFFF, JP V0 and a popped 0x1000. -/
theorem witness_next_fetch :
    (∃ t, exec (.jp 0xFFF) State.reset = .next t ∧ State.reset.Running ∧ (0xFFF : Addr) = 0xFFF) ∧
    (∃ t, exec (.jpV0 0xFFF) (State.reset.setV 0 0xFF) = .next t ∧ 0xFFE < t.pc.toNat) ∧
    (State.reset.push 0x1000).stack = [] ++ [0x1000] ∧ (State.reset.push 0x1000).Running ∧ 0xFFE < (0x1000 : Word).toNat :=
  ⟨⟨_, rfl, by decide⟩, ⟨_, rfl, by decide⟩, by decide⟩
/-- RUN to WAIT_KEY, RUN to HALT, WAIT_KEY to RUN by KEY_PRESS and by RESET. -/
theorem witness_ControlStateTransitions :
    ((runAt 0xF30A).control = .run ∧ ∃ t, step (runAt 0xF30A) = .next t ∧ t.control = .waitKey) ∧
    ((runAt 0xFFFF).control = .run ∧ ∃ t, transition .step (runAt 0xFFFF) = .next t ∧ t.control ≠ .run) ∧
    (waiting.control = .waitKey ∧ ∃ t, transition (.keyPress 0xB) waiting = .next t ∧ t.control = .run) ∧
    (∃ t, transition .reset waiting = .next t ∧ t.control = .run) :=
  ⟨⟨by decide, _, rfl, by decide⟩, ⟨by decide, _, rfl, by decide⟩, ⟨by decide, _, rfl, by decide⟩, _, rfl, by decide⟩
/-- A sprite of no rows anywhere, and one row at the last address. -/
theorem witness_draw_inside : ((0 : Nibble).toNat = 0 ∨ (State.reset.setI 0xFFFF).i.toNat + 0 - 1 ≤ 0xFFF) ∧
    (State.reset.setI 0xFFF).i.toNat + (1 : Nibble).toNat - 1 ≤ 0xFFF := by decide
/-- A set sprite bit on a cell that is on, and a sprite that meets no such cell. -/
theorem witness_draw_covers :
    (let s := State.reset.setFb (FrameBuffer.toggle State.reset.fb 0 0)
     SpriteCovers s 0 0 5 0 0 ∧ s.fb.pixel 0 0 = true) ∧
    ¬ ∃ cx cy, SpriteCovers State.reset 0 0 0 cx cy ∧ State.reset.fb.pixel cx cy = true :=
  ⟨⟨⟨0, 0, by decide⟩, by decide⟩, by rintro ⟨_, _, ⟨r, _, h, _⟩, _⟩; omega⟩
theorem witness_draw_outside :
    (1 ≤ (1 : Nibble).toNat ∧ 0xFFF < (State.reset.setI 0x1000).i.toNat + (1 : Nibble).toNat - 1) ∧
    (1 ≤ (2 : Nibble).toNat ∧ 0xFFF < (State.reset.setI 0xFFF).i.toNat + (2 : Nibble).toNat - 1) := by decide
theorem witness_DrawTwiceRestores : State.reset.i.toNat + (5 : Nibble).toNat - 1 ≤ 0xFFF ∧
    ∃ t, exec (.drw 0 1 5) State.reset = .next t ∧ t.getV 2 = State.reset.getV 0 ∧ t.getV 3 = State.reset.getV 1 ∧
      State.reset.fb.pixel 0 0 = false ∧ t.fb.pixel 0 0 = true := ⟨by decide, _, rfl, by decide⟩
theorem witness_ReturnPopsPc : (stackOf 16).stack = List.replicate 15 0x202 ++ [0x202] ∧ (stackOf 0).stack = [] := by decide
theorem witness_call_depths : (stackOf 15).stack.length < 16 ∧ (stackOf 16).stack.length = 16 := by decide
theorem witness_SelfJumpIsFixpoint : (runAt 0x1200).Running ∧ (runAt 0x1200).pc.toNat = (0x200 : Addr).toNat ∧
    (runAt 0x1200).pc.toNat ≤ 0xFFE ∧ (runAt 0x1200).fetchWord = 0x1#4 ++ (0x200 : Addr) := by decide
theorem witness_not_vf : (0xE : Reg) ≠ regF ∧ (0x0 : Reg) ≠ regF := by decide
theorem witness_digits_bounds :
    ((State.reset.setI 0xFFD).MemOk ∧ (State.reset.setI 0xFFD).i.toNat + 2 ≤ 0xFFF) ∧
    0xFFF < (State.reset.setI 0xFFE).i.toNat + 2 ∧ 0xFFF < (State.reset.setI 0xFFFF).i.toNat + 2 := by decide
/-- The hypotheses of StoreRegisters and LoadRegisters. -/
theorem witness_block_bounds :
    ((State.reset.setI 0xFF0).MemOk ∧ (State.reset.setI 0xFF0).i.toNat + (0xF : Reg).toNat ≤ 0xFFF) ∧
    (State.reset.setI 0xFFF).i.toNat + (0x0 : Reg).toNat ≤ 0xFFF ∧
    0xFFF < (State.reset.setI 0xFF1).i.toNat + (0xF : Reg).toNat ∧
    0xFFF < (State.reset.setI 0x1000).i.toNat + (0x0 : Reg).toNat := by decide
/-- V0, V1 hold 0x600A and I is the address after the Fx55. -/
theorem witness_StoredWordIsFetched :
    let s := (regs2 0 0x60 1 0x0A).setI 0x202
    s.MemOk ∧ s.Running ∧ s.i.toNat + (1 : Reg).toNat ≤ 0xFFF ∧
    (∃ t, exec (.ldMemVx 1) s = .next t ∧ t.pc.toNat = s.i.toNat + (0 : Reg).toNat) ∧
    (1 : Reg).toNat = (0 : Reg).toNat + 1 ∧ (1 : Reg).toNat ≤ (1 : Reg).toNat ∧
    decode (s.getV 0 ++ s.getV 1) = .ok (.ldVxKk 0 0x0A) :=
  ⟨by decide, by decide, by decide, ⟨_, rfl, by decide⟩, by decide⟩
theorem witness_load_lengths : halted.fault ≠ none ∧ State.reset.fault = none ∧ State.reset.MemOk ∧
    (List.replicate 3584 (0 : Byte)).length ≤ 3584 ∧ 3584 < (List.replicate 3585 (0 : Byte)).length := by
  rw [List.length_replicate, List.length_replicate]; decide
theorem witness_BootRunsImage : (List.replicate 3582 (0 : Byte)).length + 2 ≤ 3584 ∧
    decode ((0x60 : Byte) ++ (0x0A : Byte)) = .ok (.ldVxKk 0 0x0A) := by rw [List.length_replicate]; decide
theorem witness_FlagWrittenOnlyBy :
    let s := regs2 0 0xFF 1 0x01
    (∃ t, exec (.addVxVy 0 1) s = .next t ∧ t.getV regF ≠ s.getV regF) ∧
    ∃ t, exec (.ldVxKk 0xF 1) s = .next t ∧ t.getV regF ≠ s.getV regF := ⟨⟨_, rfl, by decide⟩, _, rfl, by decide⟩
/-- Each part of PartsHaveTheirWriters does change. -/
theorem witness_PartsHaveTheirWriters :
    (∃ t, exec (.ldI 0x123) State.reset = .next t ∧ t.i ≠ State.reset.i) ∧
    (∃ t, exec (.call 0x300) State.reset = .next t ∧ t.stack ≠ State.reset.stack) ∧
    (∃ t, exec (.ldDtVx 0) (State.reset.setV 0 2) = .next t ∧ t.dt ≠ State.reset.dt) ∧
    (∃ t, exec (.ldStVx 0) (State.reset.setV 0 2) = .next t ∧ t.st ≠ State.reset.st) ∧
    (∃ t, exec (.drw 0 1 5) State.reset = .next t ∧ t.fb ≠ State.reset.fb) ∧
    (∃ t, exec (.ldVxK 3) State.reset = .next t ∧ (t.paused ≠ State.reset.paused ∨ t.waitReg ≠ State.reset.waitReg)) ∧
    (∃ t, exec (.ldMemVx 0) (State.reset.setV 0 2) = .next t ∧ t.mem ≠ State.reset.mem) ∧
    ∃ t, exec .ret State.reset = .next t ∧ t.fault ≠ State.reset.fault :=
  ⟨⟨_, rfl, by decide⟩, ⟨_, rfl, by decide⟩, ⟨_, rfl, by decide⟩, ⟨_, rfl, by decide⟩, ⟨_, rfl, by decide⟩,
   ⟨_, rfl, by decide⟩, ⟨_, rfl, by decide⟩, _, rfl, by decide⟩
/-- The hypotheses of PcAfterInstruction: a plain step, a taken skip, a return. -/
theorem witness_PcAfterInstruction :
    (∃ t, exec .cls State.reset = .next t ∧ State.reset.fault = none ∧ t.fault = none) ∧
    (∃ t, exec (.seVxKk 0 0) State.reset = .next t ∧ t.fault = none ∧ t.pc.toNat = State.reset.pc.toNat + 4) ∧
    ∃ t, exec .ret (stackOf 1) = .next t ∧ (stackOf 1).fault = none ∧ t.fault = none :=
  ⟨⟨_, rfl, rfl, rfl⟩, ⟨_, rfl, rfl, by decide⟩, _, rfl, rfl, rfl⟩
/-- The hypotheses of InputsSampledOnlyBy and MemoryReadOnlyBy, one instruction for each clause. -/
theorem witness_reads :
    ((∃ t, exec (.rnd 3 0x0F) State.reset = .next t) ∧ ∀ x, Instr.rnd 3 0x0F ≠ .skp x ∧ Instr.rnd 3 0x0F ≠ .sknp x) ∧
    ((∃ t, exec (.skp 3) State.reset = .next t) ∧ ∀ x kk, Instr.skp 3 ≠ .rnd x kk) ∧
    ((∃ t, exec .cls State.reset = .next t) ∧ (∀ x y n, Instr.cls ≠ .drw x y n) ∧
      ∀ x, Instr.cls ≠ .ldBVx x ∧ Instr.cls ≠ .ldMemVx x ∧ Instr.cls ≠ .ldVxMem x) :=
  ⟨⟨⟨_, rfl⟩, by simp⟩, ⟨⟨_, rfl⟩, by simp⟩, ⟨_, rfl⟩, by simp, by simp⟩

end Sys2Proof.Tests
end

section
/-! The decoder and the opcode map: a word that selects a row of R99 decodes, so a word the decoder rejects is illegal. -/

namespace Sys2Proof

/-- Whether a word decodes depends only on the fields the two-level switch looks at (30_encoding.md R93 to R97): the
class, and in the classes 0x0, 0x8, 0xE and 0xF the secondary discriminant. -/
theorem decode_isOk_congr {w b : Word} (hclass : fieldClass w = fieldClass b) (h0 : fieldClass b = 0x0#4 → w = b)
    (h8 : fieldClass b = 0x8#4 → fieldN w = fieldN b)
    (hEF : fieldClass b = 0xE#4 ∨ fieldClass b = 0xF#4 → fieldKk w = fieldKk b) :
    (decode w).isOk = (decode b).isOk := by
  unfold decode
  rw [hclass]
  split
  case h_1 hb => rw [h0 hb]
  case h_9 hb => unfold decodeClass8; rw [h8 hb]; split <;> rfl
  case h_15 hb => unfold decodeClassE; rw [hEF (.inl hb)]; split <;> rfl
  case h_16 => -- the last arm of `decode`: the one class left is 0xF
    have hb : fieldClass b = 0xF#4 := by simp only [imp_false] at *; bv_omega
    unfold decodeClassF; rw [hEF (.inr hb)]; split <;> rfl
  all_goals rfl

/-- A row's mask covers the fields the decoder looks at in the row's class, and the row's own bits decode (R99). -/
theorem opcodeMap_masks : ∀ r ∈ opcodeMap, fieldClass r.mask = BitVec.allOnes 4 ∧
    (fieldClass r.bits = 0x0#4 → r.mask = BitVec.allOnes 16) ∧
    (fieldClass r.bits = 0x8#4 → fieldN r.mask = BitVec.allOnes 4) ∧
    (fieldClass r.bits = 0xE#4 ∨ fieldClass r.bits = 0xF#4 → fieldKk r.mask = BitVec.allOnes 8) ∧
    (decode r.bits).isOk = true := by
  decide

theorem decode_isOk_of_selects {r : Row} {w : Word} (hr : r ∈ opcodeMap) (hw : r.selects w = true) :
    (decode w).isOk = true := by
  obtain ⟨hclass, h0, h8, hEF, hok⟩ := opcodeMap_masks r hr
  have hand : w &&& r.mask = r.bits := by simpa [Row.selects] using hw
  rw [← hok]
  refine decode_isOk_congr (fieldClass_of_and hand hclass) (fun h => ?_) (fun h => fieldN_of_and hand (h8 h))
    (fun h => fieldKk_of_and hand (hEF h))
  rw [← hand, h0 h, BitVec.and_allOnes]

/-- A word the decoder rejects is illegal (30_encoding.md R100). -/
theorem legalWord_eq_false_of_decode_error {w : Word} {e : Reject} (h : decode w = .error e) : legalWord w = false := by
  rw [← Bool.not_eq_true]
  intro hl
  obtain ⟨r, hr, hw⟩ := List.any_eq_true.1 hl
  have hok := decode_isOk_of_selects hr hw
  rw [h] at hok
  cases hok

end Sys2Proof
end

section
/-! The invariant `State.Inv`: it holds at reset, a fault with a legal record keeps it, a completed instruction keeps
it, and so every STEP and every other input of the host keeps it (10_state.md R24, R27, R33; 60_exceptions.md R311). -/

namespace Sys2Proof.Machine

/-- The base case: RESET's values meet the invariant. Settles O3. -/
theorem invariantAtReset : Obligations.InvariantAtReset := by
  unfold Obligations.InvariantAtReset
  refine ⟨Memory.wf_reset, ⟨by decide, ?_⟩, by decide, ⟨fun _ => by decide, fun h => absurd rfl h⟩, ?_⟩
  · intro a ha; cases ha
  · intro f hf; cases hf

/-- Taking a fault with a legal record in RUN keeps the invariant: nothing but the record changes (R318). -/
theorem State.Inv.takeFault {s : State} (hs : s.Inv) (hrun : s.Running) {k : FaultKind} {w : Option Word}
    {a : Option Nat} (hok : FaultRecord.Ok ⟨k, w, s.pc, a⟩) : (s.takeFault k w a).Inv := by
  obtain ⟨hmem, hstack, hpc, -, -⟩ := hs
  refine ⟨hmem, hstack, hpc, ⟨(nomatch ·), fun _ => hrun.2⟩, fun f hf => ?_⟩
  cases hf
  exact ⟨hok, rfl⟩

/-- The record of an execute-phase fault is a row of R311. -/
theorem Faulted.inv {s t : State} {i : Instr} (h : Faulted s i t) (hs : s.Inv) (hrun : s.Running) : t.Inv := by
  cases h with
  | underflow => exact hs.takeFault hrun ⟨rfl, rfl⟩
  | overflow nnn => exact hs.takeFault hrun ⟨⟨nnn, rfl⟩, rfl⟩
  | outOfRange _ w a ha => exact hs.takeFault hrun ⟨a, rfl, ha, (nomatch ·)⟩

theorem Completed.memOk {s t : State} {i : Instr} (h : Completed i s t) (hs : s.MemOk) : t.MemOk := by
  rcases h.memory with e | ⟨⟨a, bs, e⟩, -⟩ <;> unfold State.MemOk <;> rw [e]
  · exact hs
  · exact Memory.wf_writeBytes a bs hs

/-- The only address an instruction adds to the stack is its own pc0 + 2 (42_control_flow.md R192), at most 0x1000 when
the instruction could be fetched. -/
theorem Completed.stackOk {s t : State} {i : Instr} (h : Completed i s t) (hs : s.StackOk)
    (hfetch : s.pc.toNat ≤ 0xFFE) : t.StackOk := by
  obtain ⟨hlen, hall⟩ := hs
  unfold State.StackOk
  rcases h.stack with e | ⟨-, e⟩ | ⟨hroom, e, -⟩ <;> rw [e]
  · exact ⟨hlen, hall⟩
  · exact ⟨by rw [List.length_dropLast]; omega, fun a ha => hall a (List.mem_of_mem_dropLast ha)⟩
  · refine ⟨by rw [List.length_append, List.length_singleton]; omega, fun a ha => ?_⟩
    rcases List.mem_append.1 ha with ha | ha
    · exact hall a ha
    · rw [List.mem_singleton.1 ha, toNat_add_two]; omega

theorem Completed.pcOk {s t : State} {i : Instr} (h : Completed i s t) (hs : s.StackOk)
    (hfetch : s.pc.toNat ≤ 0xFFE) : t.PcOk := by
  unfold State.PcOk
  rcases h.pc with e | ⟨e, -⟩ | ⟨-, hmem⟩ | ⟨hle, -⟩
  · omega
  · omega
  · exact (hs.2 _ hmem).trans (by decide)
  · exact hle

theorem Completed.waitOk {s t : State} {i : Instr} (h : Completed i s t) (hs : s.WaitOk) (hrun : s.Running) :
    t.WaitOk := by
  refine ⟨fun _ => ?_, fun hf => absurd (h.fault.trans hrun.1) hf⟩
  rcases h.pauseState with ⟨ep, ew⟩ | ⟨-, hp, hw⟩
  · rw [ep, ew]; exact hs.1 hrun.1
  · exact iff_of_true hp hw

/-- A fetched instruction that completes keeps the invariant. -/
theorem Completed.inv {s t : State} {i : Instr} (h : Completed i s t) (hs : s.Inv) (hrun : s.Running)
    (hfetch : s.pc.toNat ≤ 0xFFE) : t.Inv := by
  obtain ⟨hmem, hstack, -, hwait, -⟩ := hs
  refine ⟨h.memOk hmem, h.stackOk hstack hfetch, h.pcOk hstack hfetch, h.waitOk hwait hrun, fun f hf => ?_⟩
  rw [h.fault, hrun.1] at hf
  cases hf

/-- Settles O4, along the ways a STEP can go: it holds, faults at FETCH, faults at DECODE, or executes. -/
theorem stepKeepsInvariant : Obligations.StepKeepsInvariant := by
  unfold Obligations.StepKeepsInvariant
  intro s t hs h
  unfold step at h
  rcases s.stepFront_cases with ⟨-, e⟩ | ⟨hrun, hpc, e⟩ | ⟨hrun, -, ⟨_, hdec⟩, e⟩ | ⟨hrun, hpc, i, -, e⟩ <;>
    simp only [e] at h
  · cases h; exact hs
  · cases h
    exact hs.takeFault hrun ⟨_, rfl, Nat.le_max_right _ _, fun _ => hpc⟩
  · cases h
    exact hs.takeFault hrun ⟨⟨_, rfl, legalWord_eq_false_of_decode_error hdec⟩, rfl⟩
  · rcases exec_cases h with hf | hc
    · exact hf.inv hs hrun
    · exact hc.inv hs hrun hpc

theorem State.Inv.store {s : State} (hs : s.Inv) (base : Nat) (bytes : List Byte) : (s.store base bytes).Inv :=
  ⟨Memory.wf_writeBytes base bytes hs.1, hs.2⟩

theorem State.Inv.load {s : State} (hs : s.Inv) (bytes : List Byte) : (s.load bytes).2.Inv := by
  unfold State.load
  split
  · exact hs
  · split
    · exact hs.store _ _
    · exact hs

theorem State.Inv.tick {s : State} (hs : s.Inv) : s.tick.Inv := by
  unfold State.tick
  split <;> exact hs

theorem State.Inv.keyPress {s : State} (hs : s.Inv) (k : Nibble) : (s.keyPress k).Inv := by
  unfold State.keyPress
  split
  · obtain ⟨hmem, hstack, hpc, -, hfault⟩ := hs
    exact ⟨hmem, hstack, hpc, ⟨fun _ => iff_of_false Bool.false_ne_true (fun h => h rfl), fun _ => rfl⟩, hfault⟩
  · exact hs

/-- Settles O5, input by input. -/
theorem hostInputsKeepInvariant : Obligations.HostInputsKeepInvariant := by
  unfold Obligations.HostInputsKeepInvariant
  intro inp s t hne hs h
  cases inp with
  | step => exact absurd rfl hne
  | reset => cases h; exact invariantAtReset
  | load bytes => cases h; exact hs.load bytes
  | tick => cases h; exact hs.tick
  | keyPress k => cases h; exact hs.keyPress k
  | setKeys keys => cases h; exact hs

end Sys2Proof.Machine
end

section
/-! Who writes what: the registers an instruction may write, and the statements about VF, the other parts and PC. -/

namespace Sys2Proof

/-- The general registers an instruction may write (10_state.md R21, R22, R35): its destination V[x], VF as a flag, and
V[0]..V[x] of Fx65. -/
def Instr.mayWrite : Instr → Reg → Prop
  | .ldVxKk x _, q | .addVxKk x _, q | .rnd x _, q | .ldVxDt x, q => q = x
  | .ldVxVy x _, q | .orVxVy x _, q | .andVxVy x _, q | .xorVxVy x _, q => q = x
  | .addVxVy x _, q | .subVxVy x _, q | .subnVxVy x _, q | .shr x _, q | .shl x _, q => q = regF ∨ q = x
  | .drw _ _ _, q => q = regF
  | .ldVxMem x, q => q.toNat ≤ x.toNat
  | _, _ => False

end Sys2Proof

namespace Sys2Proof.Machine

/-- Every register but those an instruction may write keeps its value, whether it completes or faults. -/
theorem exec_getV_of_not_mayWrite {i : Instr} {s t : State} {q : Reg} (h : exec i s = .next t)
    (hq : ¬ i.mayWrite q) : t.getV q = s.getV q := by
  cases i
  case ret =>
    simp only [exec, execRet] at h
    split at h <;> cases h <;> rfl
  case call nnn =>
    simp only [exec, execCall] at h
    split at h <;> cases h <;> rfl
  case ldBVx x => rcases State.withBlock_inv h with rfl | ⟨a, -, rfl⟩ <;> rfl
  case ldMemVx x => rcases State.withBlock_inv h with rfl | ⟨a, -, rfl⟩ <;> rfl
  case drw x y n =>
    rcases State.withBlock_inv h with rfl | ⟨a, -, rfl⟩
    · exact State.getV_setV_of_ne _ _ hq
    · rfl
  case ldVxMem x =>
    rcases State.withBlock_inv h with rfl | ⟨a, -, rfl⟩
    · have hx := x.isLt
      rw [State.getV_setRegs, Regs.getElem_load _ _ _ (by rw [Memory.length_readBytes]; omega), dif_neg]
      · rfl
      · rw [Memory.length_readBytes]; simp only [Instr.mayWrite] at hq; omega
    · rfl
  case seVxKk | sneVxKk | seVxVy | sneVxVy | skp | sknp =>
    cases h; rw [State.skipIf_eq]; rfl
  case addVxVy | subVxVy | subnVxVy | shr | shl =>
    cases h
    obtain ⟨hF, hx⟩ := not_or.1 hq
    rw [State.getV_writeFlagged, if_neg hF, if_neg hx]
  case ldVxKk | addVxKk | ldVxVy | orVxVy | andVxVy | xorVxVy | ldVxDt =>
    cases h; exact (State.getV_writePlain ..).trans (if_neg hq)
  case rnd => cases h; exact (State.getV_writePlain s.countDraw ..).trans (if_neg hq)
  all_goals cases h; rfl

/-- Settles O53: an instruction that may write VF is one of the listed ones. -/
theorem flagWrittenOnlyBy : Obligations.FlagWrittenOnlyBy := by
  unfold Obligations.FlagWrittenOnlyBy
  intro i s t h hne
  have hw : i.mayWrite regF := by
    by_contra hq
    exact hne (exec_getV_of_not_mayWrite h hq)
  cases i
  case addVxVy x y | subVxVy x y | shr x y | subnVxVy x y | shl x y => exact .inl ⟨x, y, by simp⟩
  case drw x y n => exact .inr (.inl ⟨x, y, n, rfl⟩)
  case ldVxKk x kk | addVxKk x kk | rnd x kk =>
    obtain rfl : regF = x := hw
    exact .inr (.inr (.inl ⟨kk, by simp⟩))
  case ldVxVy x y | orVxVy x y | andVxVy x y | xorVxVy x y =>
    obtain rfl : regF = x := hw
    exact .inr (.inr (.inr (.inl ⟨y, by simp⟩)))
  case ldVxDt x =>
    obtain rfl : regF = x := hw
    exact .inr (.inr (.inr (.inr (.inl rfl))))
  case ldVxMem x =>
    obtain rfl : regF = x := BitVec.eq_of_toNat_eq (Nat.le_antisymm hw (Nat.le_of_lt_succ x.isLt))
    exact .inr (.inr (.inr (.inr (.inr rfl))))
  all_goals exact hw.elim

theorem Faulted.eq_takeFault {s t : State} {i : Instr} (h : Faulted s i t) : ∃ k w a, t = s.takeFault k w a := by
  cases h <;> exact ⟨_, _, _, rfl⟩

/-- The instructions that can fault at EXECUTE (60_exceptions.md R312, R313, R315). -/
theorem Faulted.raisedBy {s t : State} {i : Instr} (h : Faulted s i t) :
    i = .ret ∨ (∃ nnn, i = .call nnn) ∨ (∃ x y n, i = .drw x y n) ∨
      ∃ x, i = .ldBVx x ∨ i = .ldMemVx x ∨ i = .ldVxMem x := by
  cases h with
  | underflow => exact .inl rfl
  | overflow nnn => exact .inr (.inl ⟨nnn, rfl⟩)
  | outOfRange _ _ _ _ hi => exact .inr (.inr hi)

theorem Completed.stackWriter {s t : State} {i : Instr} (h : Completed i s t) (hne : t.stack ≠ s.stack) :
    i = .ret ∨ ∃ nnn, i = .call nnn := by
  rcases h.stack with e | ⟨hi, -⟩ | ⟨-, -, hi⟩
  · exact absurd e hne
  · exact .inl hi
  · exact .inr hi

theorem Completed.pauseWriter {s t : State} {i : Instr} (h : Completed i s t)
    (hne : t.paused ≠ s.paused ∨ t.waitReg ≠ s.waitReg) : ∃ x, i = .ldVxK x := by
  rcases h.pauseState with ⟨ep, ew⟩ | ⟨hi, -⟩
  · exact hne.elim (absurd ep) (absurd ew)
  · exact hi

theorem Completed.memoryWriter {s t : State} {i : Instr} (h : Completed i s t) (hne : t.mem ≠ s.mem) :
    ∃ x, i = .ldBVx x ∨ i = .ldMemVx x := by
  rcases h.memory with e | ⟨-, hi⟩
  · exact absurd e hne
  · exact hi

/-- Settles O54: a fault changes the record only, and a completed instruction the parts it writes. -/
theorem partsHaveTheirWriters : Obligations.PartsHaveTheirWriters := by
  unfold Obligations.PartsHaveTheirWriters
  intro i s t h
  rcases exec_cases h with hf | hc
  · obtain ⟨k, w, a, rfl⟩ := hf.eq_takeFault
    exact ⟨absurd rfl, absurd rfl, absurd rfl, absurd rfl, absurd rfl, (·.elim (absurd rfl) (absurd rfl)), absurd rfl,
      fun _ => hf.raisedBy⟩
  · exact ⟨hc.addressReg, hc.stackWriter, hc.delayTimer, hc.soundTimer, hc.display, hc.pauseWriter, hc.memoryWriter,
      absurd hc.fault⟩

/-- Settles O55: with no fault in `t`, the instruction completed. -/
theorem pcAfterInstruction : Obligations.PcAfterInstruction := by
  unfold Obligations.PcAfterInstruction
  intro i s t h _ ht
  rcases exec_cases h with hf | hc
  · cases hf <;> cases ht
  · rcases hc.pc with e | e | ⟨e, -⟩ | ⟨-, e⟩
    · exact .inl e
    · exact .inr (.inl e)
    · exact .inr (.inr (.inl e))
    · exact .inr (.inr (.inr e))

end Sys2Proof.Machine
end

section
/-! The reset values (10_state.md R38), and CALL with its RET (42_control_flow.md R190, R192). -/

namespace Sys2Proof.Machine

/-- Settles O1. -/
theorem resetStateValues : Obligations.ResetStateValues := by
  unfold Obligations.ResetStateValues
  refine ⟨by decide, fun a ha _ => ?_, fun r => ?_, rfl, rfl, rfl, rfl, rfl, fun x y _ _ => ?_, rfl, rfl, rfl⟩
  · exact List.getD_eq_default fontBytes _ ha
  · exact Vector.getElem_replicate _
  · exact FrameBuffer.pixel_clear x y

theorem exec_call_of_room {s : State} (nnn : Addr) (h : s.stack.length < 16) :
    exec (.call nnn) s = .next ((s.advance.push s.advance.pc).setPc (zextAddr nnn)) := by
  rw [exec, execCall, if_pos h]

theorem exec_ret_of_top {s : State} {a : Word} (h : s.top = some a) : exec .ret s = .next (s.dropTop.setPc a) := by
  rw [exec, execRet, h]

/-- Popping what was pushed gives the stack back (10_state.md R28). -/
theorem State.dropTop_push (s : State) (a : Word) : (s.push a).dropTop = s := by
  simp [State.push, State.dropTop]

/-- Settles O25: CALL then RET is, in effect, the pre-advance alone. -/
theorem callThenReturn : Obligations.CallThenReturn := by
  unfold Obligations.CallThenReturn
  intro nnn s hroom
  refine ⟨_, s.setPc (s.pc + 2), exec_call_of_room nnn hroom, ?_, toNat_add_two s.pc, sameOutside_setPc s _⟩
  have htop : ((s.advance.push s.advance.pc).setPc (zextAddr nnn)).top = some (s.pc + 2) := State.top_push _ _
  rw [exec_ret_of_top htop]
  congr 1
  exact congrArg (·.setPc (s.pc + 2)) (State.dropTop_push (s.setPc (zextAddr nnn)) _)

end Sys2Proof.Machine
end

section
/-! Memory and the instructions (20_memory.md): the word Fx55 stores where PC then points is the next one fetched (R74),
and no instruction but Dxyn, Fx33, Fx55 and Fx65 looks at memory (R65). -/

namespace Sys2Proof.Machine

/-- A STEP in RUN whose fetch word decodes executes that instruction (40_execution.md R120). -/
theorem step_of_decode_fetchWord {s : State} {i : Instr} (hrun : s.Running) (hpc : s.pc.toNat ≤ 0xFFE)
    (hdec : decode s.fetchWord = .ok i) : step s = exec i s := by
  rcases s.stepFront_cases with ⟨h, -⟩ | ⟨-, h, -⟩ | ⟨-, -, ⟨e, h⟩, -⟩ | ⟨-, -, j, h, hfront⟩
  · exact absurd hrun h
  · omega
  · cases hdec.symm.trans h
  · cases hdec.symm.trans h
    rw [step, hfront]

/-- Fx55 with its whole block inside the array completes (45_index_memory.md R284). -/
theorem exec_ldMemVx_of_inside {s : State} (x : Reg) (h : s.i.toNat + x.toNat ≤ 0xFFF) :
    exec (.ldMemVx x) s = .next (s.advance.store s.i.toNat (s.regBlock x)) :=
  s.withBlock_of_inside _ _ _ (.inr (by omega))

/-- After the stores of Fx55 the byte at I + r is V[r], for every r up to x (45_index_memory.md R284). -/
theorem Memory.read_writeBytes_regBlock {s : State} (hmem : s.MemOk) {x r : Reg} (hin : s.i.toNat + x.toNat ≤ 0xFFF)
    (hr : r.toNat ≤ x.toNat) : (s.mem.writeBytes s.i.toNat (s.regBlock x)).read (s.i.toNat + r.toNat) = s.getV r := by
  have hlen := s.length_regBlock x
  rw [Memory.read_writeBytes _ hmem (by omega), dif_pos (by omega), State.getElem_regBlock]
  simp

/-- Settles O50: FETCH reads the two bytes as they were stored. -/
theorem storedWordIsFetched : Obligations.StoredWordIsFetched := by
  unfold Obligations.StoredWordIsFetched
  intro x s t a b i hmem hrun hin h hab hbx hpc hdec
  cases (exec_ldMemVx_of_inside x hin).symm.trans h
  refine step_of_decode_fetchWord hrun (by omega) ?_
  have hhigh := Memory.read_writeBytes_regBlock hmem hin (r := a) (by omega)
  have hlow := Memory.read_writeBytes_regBlock hmem hin hbx
  rw [hab, ← Nat.add_assoc] at hlow
  rw [State.fetchWord, hpc, State.store_mem, State.advance_mem, hhigh, hlow]
  exact hdec

/-- A skip, taken or not, does not look at memory (42_control_flow.md R198). -/
theorem State.skipIf_setMem (s : State) (m : Memory) (c : Bool) : (s.setMem m).skipIf c = (s.skipIf c).setMem m := by
  rw [State.skipIf_eq, State.skipIf_eq]; rfl

theorem State.top_setMem (s : State) (m : Memory) : (s.setMem m).top = s.top := rfl

/-- Settles O57: RET and CALL decide on the stack and a skip on registers and keys; every other meaning is one update
of the state that leaves memory aside. -/
theorem memoryReadOnlyBy : Obligations.MemoryReadOnlyBy := by
  unfold Obligations.MemoryReadOnlyBy
  intro i s t m h hdrw hblock
  change exec i (s.setMem m) = .next (t.setMem m)
  cases i
  case drw x y n => exact absurd rfl (hdrw x y n)
  case ldBVx x => exact absurd rfl (hblock x).1
  case ldMemVx x => exact absurd rfl (hblock x).2.1
  case ldVxMem x => exact absurd rfl (hblock x).2.2
  case ret =>
    rw [exec, execRet] at h ⊢
    rw [State.top_setMem]
    cases htop : s.top <;> rw [htop] at h <;> cases h <;> rfl
  case call nnn =>
    rw [exec, execCall] at h ⊢
    rw [State.setMem_stack]
    by_cases hroom : s.stack.length < Config.stackDepth
    · rw [if_pos hroom] at h ⊢; cases h; rfl
    · rw [if_neg hroom] at h ⊢; cases h; rfl
  case seVxKk | sneVxKk | seVxVy | sneVxVy | skp | sknp =>
    cases h
    exact congrArg Host.Outcome.next (s.skipIf_setMem m _)
  all_goals cases h; rfl

end Sys2Proof.Machine
end

section
/-! The encoding (30_encoding.md R90 to R102): decoding inverts encoding, what `decode` answers on any word, class by
class, and from these the opcode map of R99 and the illegal words of R100. -/

namespace Sys2Proof

/-- The decoder gives back the instruction a word was made from: the word has the fields it was made of, and they select
the instruction's own arm of the two-level switch (R93). -/
theorem decode_encode (i : Instr) : decode (encode i) = .ok i := by
  cases i
  case cls | ret => rfl
  case ldVxVy | orVxVy | andVxVy | xorVxVy | addVxVy | subVxVy | shr | subnVxVy | shl =>
    simp [encode, decode, decodeClass8]
  case skp | sknp => simp [encode, decode, decodeClassE]
  case ldVxDt | ldVxK | ldDtVx | ldStVx | addIVx | ldFVx | ldBVx | ldMemVx | ldVxMem =>
    simp [encode, decode, decodeClassF]
  -- the other classes have no secondary discriminant
  all_goals simp [encode, decode]

theorem decodeBytes_encodeBytes (i : Instr) (rest : List Byte) :
    decodeBytes (encodeBytes i ++ rest) = .ok (i, rest) := by
  change decodeBytes (highByte (encode i) :: lowByte (encode i) :: rest) = _
  rw [decodeBytes_cons, wordOfBytes_high_low, decode_encode]

/-- Settles O7: the bytes of a word are put together to that word again (20_memory.md R63). -/
theorem decodeOfEncode : Obligations.DecodeOfEncode := by
  unfold Obligations.DecodeOfEncode
  exact fun i rest => ⟨decode_encode i, decodeBytes_encodeBytes i rest⟩

/-- What a decoder may answer on `w`: an instruction of that word when the word is not illegal, and otherwise the word
itself as an unknown opcode (R100). -/
inductive DecodeAnswers (w : Word) (illegal : Prop) : Except Reject Instr → Prop
  | ok (i : Instr) (hlegal : ¬ illegal) (henc : encode i = w) : DecodeAnswers w illegal (.ok i)
  | error (hillegal : illegal) : DecodeAnswers w illegal (.error (.unknownOpcode w))

theorem DecodeAnswers.encode_eq {w : Word} {P : Prop} {i : Instr} (h : DecodeAnswers w P (.ok i)) : encode i = w := by
  cases h; assumption

theorem DecodeAnswers.error_iff {w : Word} {P : Prop} {r : Except Reject Instr} (h : DecodeAnswers w P r) :
    r = .error (.unknownOpcode w) ↔ P := by
  cases h with
  | ok i hlegal => exact iff_of_false (nomatch ·) hlegal
  | error hillegal => exact iff_of_true rfl hillegal

theorem wordNnn_of_fieldClass {w : Word} {c : Nibble} (hc : fieldClass w = c) : wordNnn c (fieldNnn w) = w := by
  rw [← hc, wordNnn_fields]

theorem wordXKk_of_fieldClass {w : Word} {c : Nibble} (hc : fieldClass w = c) :
    wordXKk c (fieldX w) (fieldKk w) = w := by
  rw [← hc, wordXKk_fields]

theorem wordXYN_of_fieldClass {w : Word} {c : Nibble} (hc : fieldClass w = c) :
    wordXYN c (fieldX w) (fieldY w) (fieldN w) = w := by
  rw [← hc, wordXYN_fields]

/-- Class 0x0: both legal words are written out (R94). -/
theorem decodeClass0_answers (w : Word) : DecodeAnswers w (w ≠ 0x00E0 ∧ w ≠ 0x00EE) (decodeClass0 w) := by
  unfold decodeClass0
  split
  · next h => exact .ok _ (fun hill => hill.1 h) h.symm
  · next h =>
    split
    · next h' => exact .ok _ (fun hill => hill.2 h') h'.symm
    · next h' => exact .error ⟨h, h'⟩

/-- Class 0x8: the low nibble selects, and the word is its class, x, y and that nibble (R95). -/
theorem decodeClass8_answers {w : Word} (hc : fieldClass w = 0x8#4) :
    DecodeAnswers w (w.toNat % 16 ∈ [0x8, 0x9, 0xA, 0xB, 0xC, 0xD, 0xF]) (decodeClass8 w) := by
  have hword := wordXYN_of_fieldClass hc
  unfold decodeClass8
  split
  case h_10 =>
    simp only [fieldN_eq_iff, imp_false, BitVec.toNat_ofNat] at *
    exact .error (by simp only [List.mem_cons, List.not_mem_nil]; omega)
  all_goals next hn =>
    rw [hn] at hword
    exact .ok _ (by rw [(fieldN_eq_iff w _).1 hn]; decide) hword

/-- Class 0xE: the low byte selects, and the word is its class, x and that byte (R96). -/
theorem decodeClassE_answers {w : Word} (hc : fieldClass w = 0xE#4) :
    DecodeAnswers w (w.toNat % 256 ∉ [0x9E, 0xA1]) (decodeClassE w) := by
  have hword := wordXKk_of_fieldClass hc
  unfold decodeClassE
  split
  case h_3 =>
    simp only [fieldKk_eq_iff, imp_false, BitVec.toNat_ofNat] at *
    exact .error fun hmem => by simp only [List.mem_cons, List.not_mem_nil, or_false] at hmem; omega
  all_goals next hkk =>
    rw [hkk] at hword
    exact .ok _ (by rw [(fieldKk_eq_iff w _).1 hkk]; decide) hword

/-- Class 0xF: as class 0xE, with the bytes of R97. -/
theorem decodeClassF_answers {w : Word} (hc : fieldClass w = 0xF#4) :
    DecodeAnswers w (w.toNat % 256 ∉ [0x07, 0x0A, 0x15, 0x18, 0x1E, 0x29, 0x33, 0x55, 0x65]) (decodeClassF w) := by
  have hword := wordXKk_of_fieldClass hc
  unfold decodeClassF
  split
  case h_10 =>
    simp only [fieldKk_eq_iff, imp_false, BitVec.toNat_ofNat] at *
    exact .error fun hmem => by simp only [List.mem_cons, List.not_mem_nil, or_false] at hmem; omega
  all_goals next hkk =>
    rw [hkk] at hword
    exact .ok _ (by rw [(fieldKk_eq_iff w _).1 hkk]; decide) hword

/-- The illegal words of R100, class by class. -/
def IllegalByClass (w : Word) : Prop :=
  (w.toNat / 4096 = 0x0 ∧ w ≠ 0x00E0 ∧ w ≠ 0x00EE) ∨
  (w.toNat / 4096 = 0x8 ∧ w.toNat % 16 ∈ [0x8, 0x9, 0xA, 0xB, 0xC, 0xD, 0xF]) ∨
  (w.toNat / 4096 = 0xE ∧ w.toNat % 256 ∉ [0x9E, 0xA1]) ∨
  (w.toNat / 4096 = 0xF ∧ w.toNat % 256 ∉ [0x07, 0x0A, 0x15, 0x18, 0x1E, 0x29, 0x33, 0x55, 0x65])

/-- The twelve classes with no secondary discriminant hold no illegal word. -/
theorem not_illegalByClass {w : Word} {c : Nibble} (hc : fieldClass w = c)
    (hne : c.toNat ∉ [0x0, 0x8, 0xE, 0xF]) : ¬ IllegalByClass w := by
  rw [fieldClass_eq_iff] at hc
  rw [← hc] at hne
  simp only [List.mem_cons, List.not_mem_nil] at hne
  rintro (⟨h, -⟩ | ⟨h, -⟩ | ⟨h, -⟩ | ⟨h, -⟩) <;> omega

/-- What `decode` answers on any word (R93 to R100). -/
theorem decode_answers (w : Word) : DecodeAnswers w (IllegalByClass w) (decode w) := by
  unfold decode
  split
  case h_1 hc => simpa [IllegalByClass, (fieldClass_eq_iff w _).1 hc] using decodeClass0_answers w
  case h_9 hc => simpa [IllegalByClass, (fieldClass_eq_iff w _).1 hc] using decodeClass8_answers hc
  case h_15 hc => simpa [IllegalByClass, (fieldClass_eq_iff w _).1 hc] using decodeClassE_answers hc
  case h_16 => -- the last arm of `decode`: the one class left is 0xF
    have hc : fieldClass w = 0xF#4 := by simp only [imp_false] at *; bv_omega
    simpa [IllegalByClass, (fieldClass_eq_iff w _).1 hc] using decodeClassF_answers hc
  case h_2 hc | h_3 hc | h_11 hc | h_12 hc =>
    exact .ok _ (not_illegalByClass hc (by decide)) (wordNnn_of_fieldClass hc)
  case h_4 hc | h_5 hc | h_7 hc | h_8 hc | h_13 hc =>
    exact .ok _ (not_illegalByClass hc (by decide)) (wordXKk_of_fieldClass hc)
  case h_6 hc | h_10 hc | h_14 hc =>
    exact .ok _ (not_illegalByClass hc (by decide)) (wordXYN_of_fieldClass hc)

theorem encode_of_decode {w : Word} {i : Instr} (h : decode w = .ok i) : encode i = w :=
  (h ▸ decode_answers w).encode_eq

/-- Settles O8, from what `decode` answers. -/
theorem encodeOfDecode : Obligations.EncodeOfDecode := by
  unfold Obligations.EncodeOfDecode
  exact fun _ _ => encode_of_decode

/-- Settles O10, from what `decode` answers. -/
theorem illegalWordsByClass : Obligations.IllegalWordsByClass := by
  unfold Obligations.IllegalWordsByClass
  exact fun w => (decode_answers w).error_iff

/-- Settles O11: five closed words. -/
theorem sourceWordsDecode : Obligations.SourceWordsDecode := by
  unfold Obligations.SourceWordsDecode
  decide

open Laws.Encoding in
/-- Every instruction's row is in the opcode map and its word selects it: the laws of the instructions, in the table's
order (R99). -/
theorem row_selects_encode (i : Instr) : Laws.Encoding.Statement i := by
  cases i
  exacts [cls, ret, jp _, call _, seVxKk _ _, sneVxKk _ _, seVxVy _ _ _, ldVxKk _ _, addVxKk _ _, ldVxVy _ _,
    orVxVy _ _, andVxVy _ _, xorVxVy _ _, addVxVy _ _, subVxVy _ _, shr _ _, subnVxVy _ _, shl _ _, sneVxVy _ _ _,
    ldI _, jpV0 _, rnd _ _, drw _ _ _, skp _, sknp _, ldVxDt _, ldVxK _, ldDtVx _, ldStVx _, addIVx _, ldFVx _,
    ldBVx _, ldMemVx _, ldVxMem _]

theorem row_selects_of_decode {w : Word} {i : Instr} (h : decode w = .ok i) :
    i.row ∈ opcodeMap ∧ i.row.selects w = true := by
  have hrow := row_selects_encode i
  rwa [Laws.Encoding.Statement, encode_of_decode h] at hrow

theorem exists_decode_iff_legalWord (w : Word) : (∃ i, decode w = .ok i) ↔ legalWord w = true := by
  constructor
  · rintro ⟨i, h⟩
    exact List.any_eq_true.2 ⟨i.row, row_selects_of_decode h⟩
  · intro hl
    cases h : decode w with
    | ok i => exact ⟨i, rfl⟩
    | error e => rw [legalWord_eq_false_of_decode_error h] at hl; cases hl

/-- Two rows of the map that agree where both their masks look are one row (R99). -/
theorem opcodeMap_disjoint :
    ∀ r ∈ opcodeMap, ∀ q ∈ opcodeMap, r.bits &&& q.mask = q.bits &&& r.mask → r = q := by
  decide

theorem opcodeMap_eq_of_selects {w : Word} {r q : Row} (hr : r ∈ opcodeMap) (hq : q ∈ opcodeMap)
    (hrw : r.selects w = true) (hqw : q.selects w = true) : r = q := by
  have hrb : w &&& r.mask = r.bits := by simpa [Row.selects] using hrw
  have hqb : w &&& q.mask = q.bits := by simpa [Row.selects] using hqw
  refine opcodeMap_disjoint r hr q hq ?_
  rw [← hrb, ← hqb, BitVec.and_assoc, BitVec.and_assoc, BitVec.and_comm r.mask]

/-- Settles O9: a decoded word is its instruction's own word, which selects the instruction's row. -/
theorem decodeFollowsOpcodeMap : Obligations.DecodeFollowsOpcodeMap := by
  unfold Obligations.DecodeFollowsOpcodeMap
  exact ⟨exists_decode_iff_legalWord, fun _ _ => row_selects_of_decode, fun _ _ hr _ hq =>
    opcodeMap_eq_of_selects hr hq⟩

end Sys2Proof
end

section
/-! A STEP and the control states (40_execution.md): what FETCH reads or raises (R122), STEP outside RUN (R129), and the
transitions between RUN, WAIT_KEY and HALT (R121). -/

namespace Sys2Proof.Machine

/-- Settles O12. -/
theorem stepRunsDecoded : Obligations.StepRunsDecoded := by
  unfold Obligations.StepRunsDecoded
  exact fun _ _ => step_of_decode_fetchWord

/-- Outside RUN a STEP is accepted and ignored (40_execution.md R129; 60_exceptions.md R316). -/
theorem step_of_not_running {s : State} (h : ¬ s.Running) : step s = .next s := by
  rcases s.stepFront_cases with ⟨-, hfront⟩ | ⟨hrun, -⟩ | ⟨hrun, -⟩ | ⟨hrun, -⟩
  · rw [step, hfront]
  all_goals exact absurd hrun h

/-- Settles O13: a paused block is not in RUN. -/
theorem stepWhileWaiting : Obligations.StepWhileWaiting := by
  unfold Obligations.StepWhileWaiting
  intro s _ hpaused
  exact step_of_not_running fun hrun => Bool.false_ne_true (hrun.2.symm.trans hpaused)

/-- The fault of FETCH: the first address above 0xFFF is PC itself or, at PC = 0xFFF, the one after it (R122). -/
theorem step_of_pc_outside {s : State} (hrun : s.Running) (hpc : 0xFFE < s.pc.toNat) :
    step s = .next (s.takeFault .addressOutOfRange none (some (max s.pc.toNat 0x1000))) := by
  rcases s.stepFront_cases with ⟨h, -⟩ | ⟨-, -, hfront⟩ | ⟨-, h, -⟩ | ⟨-, h, -⟩
  · exact absurd hrun h
  · rw [step, hfront]
  all_goals omega

/-- Settles O15: the two-byte read of R62, and the fault a FETCH outside the array raises. -/
theorem fetchWordOrFault : Obligations.FetchWordOrFault := by
  unfold Obligations.FetchWordOrFault
  intro s
  refine ⟨fun hpc => ?_, fun hrun hpc => ⟨_, step_of_pc_outside hrun hpc, ?_⟩⟩
  · rw [Memory.memRead2_eq, if_pos hpc, wordOfBytes]
  · have haddr : max s.pc.toNat 0x1000 = if s.pc.toNat = 0xFFF then 0x1000 else s.pc.toNat := by
      split <;> omega
    rw [← haddr]
    exact haltedBy_takeFault s _ _ _

/-- A STEP enters WAIT_KEY only by Fx0A: a fault enters HALT, and no other instruction pauses the block (R121). -/
theorem decode_fetchWord_of_step_waitKey {s t : State} (hs : s.control = .run) (h : step s = .next t)
    (ht : t.control = .waitKey) : ∃ x, decode s.fetchWord = .ok (.ldVxK x) := by
  have hrun := s.control_eq_run.1 hs
  obtain ⟨hnofault, hpaused⟩ := t.control_eq_waitKey.1 ht
  unfold step at h
  rcases s.stepFront_cases with ⟨hn, -⟩ | ⟨-, -, hfront⟩ | ⟨-, -, -, hfront⟩ | ⟨-, -, i, hdec, hfront⟩
  · exact absurd hrun hn
  · rw [hfront] at h; cases h; cases hnofault
  · rw [hfront] at h; cases h; cases hnofault
  · rw [hfront] at h
    rcases exec_cases h with hf | hc
    · obtain ⟨k, w, a, rfl⟩ := hf.eq_takeFault
      cases hnofault
    · have hne : t.paused ≠ s.paused := by rw [hpaused, hrun.2]; decide
      obtain ⟨x, rfl⟩ := hc.pauseWriter (.inl hne)
      exact ⟨x, hdec⟩

theorem State.control_congr {s t : State} (hfault : t.fault = s.fault) (hpaused : t.paused = s.paused) :
    t.control = s.control := by
  rw [State.control, State.control, hfault, hpaused]

theorem State.control_load (s : State) (bytes : List Byte) : (s.load bytes).2.control = s.control := by
  unfold State.load
  split
  · rfl
  · split
    · exact State.control_congr rfl rfl
    · rfl

theorem State.control_tick (s : State) : s.tick.control = s.control := by
  unfold State.tick
  split
  · exact State.control_congr rfl rfl
  · rfl
  · rfl

/-- KEY_PRESS ends a wait that has its register (44_keys_timers.md R260). -/
theorem State.control_keyPress_of_waiting {s : State} {r : Reg} (k : Nibble) (hs : s.control = .waitKey)
    (hr : s.waitReg = some r) : (s.keyPress k).control = .run := by
  rw [State.keyPress, hs, hr]
  exact (State.control_eq_run _).2 ⟨(s.control_eq_waitKey.1 hs).1, rfl⟩

/-- KEY_PRESS does nothing outside a wait that has its register (44_keys_timers.md R261, log 9). -/
theorem State.keyPress_of_not_waiting {s : State} (k : Nibble) (h : s.control = .waitKey → s.waitReg = none) :
    s.keyPress k = s := by
  unfold State.keyPress
  split
  next r hs hr => cases (h hs).symm.trans hr
  next => rfl

/-- Every way one input can change the control state: a STEP in RUN, a RESET, a KEY_PRESS that ends the wait (R121). -/
theorem transition_control_cases {inp : Input} {s t : State} (h : transition inp s = .next t) :
    (inp = .step ∧ s.control = .run) ∨ (inp = .reset ∧ t.control = .run) ∨
    ((∃ k, inp = .keyPress k) ∧ s.control = .waitKey ∧ t.control = .run) ∨ t.control = s.control := by
  cases inp with
  | reset => cases h; exact .inr (.inl ⟨rfl, rfl⟩)
  | load bytes => cases h; exact .inr (.inr (.inr (s.control_load bytes)))
  | step =>
    by_cases hrun : s.Running
    · exact .inl ⟨rfl, s.control_eq_run.2 hrun⟩
    · cases h.symm.trans (step_of_not_running hrun)
      exact .inr (.inr (.inr rfl))
  | tick => cases h; exact .inr (.inr (.inr s.control_tick))
  | keyPress k =>
    cases h
    by_cases hwait : s.control = .waitKey → s.waitReg = none
    · exact .inr (.inr (.inr (by rw [State.keyPress_of_not_waiting k hwait])))
    · obtain ⟨hs, hne⟩ := Classical.not_imp.1 hwait
      obtain ⟨r, hr⟩ := Option.ne_none_iff_exists'.1 hne
      exact .inr (.inr (.inl ⟨⟨k, rfl⟩, hs, State.control_keyPress_of_waiting k hs hr⟩))
  | setKeys keys => cases h; exact .inr (.inr (.inr (State.control_congr rfl rfl)))

/-- Settles O19, clause by clause from the ways one input can change the control state. -/
theorem controlStateTransitions : Obligations.ControlStateTransitions := by
  unfold Obligations.ControlStateTransitions
  refine ⟨fun _ _ => decode_fetchWord_of_step_waitKey, ?_, ?_, ?_, fun _ k _ => State.control_keyPress_of_waiting k⟩
  · intro s t inp hs h ht
    rcases transition_control_cases h with ⟨hstep, -⟩ | ⟨-, hrun⟩ | ⟨-, -, hrun⟩ | hsame
    · exact hstep
    · exact absurd hrun ht
    · exact absurd hrun ht
    · exact absurd (hsame.trans hs) ht
  · intro s t inp hs h ht
    rcases transition_control_cases h with ⟨-, hrun⟩ | ⟨-, hrun⟩ | ⟨-, -, hrun⟩ | hsame
    · cases hs.symm.trans hrun
    · cases ht.symm.trans hrun
    · cases ht.symm.trans hrun
    · cases ht.symm.trans (hsame.trans hs)
  · intro s t inp hs h ht
    rcases transition_control_cases h with ⟨-, hrun⟩ | ⟨hreset, -⟩ | ⟨hkey, -⟩ | hsame
    · cases hs.symm.trans hrun
    · exact .inl hreset
    · exact .inr hkey
    · cases ht.symm.trans (hsame.trans hs)

end Sys2Proof.Machine
end

section
/-! The ALU (41_alu.md): the values and the flags as numbers, and each instruction as one of two shapes, a plain write of
V[x] or a write of V[x] and then of the flag. -/

namespace Sys2Proof.Machine

theorem flagByte_decide (p : Prop) [Decidable p] : flagByte (decide p) = if p then 0x01 else 0x00 := by
  by_cases h : p <;> simp [h]

theorem toNat_shrFlag (a : Byte) : (shrFlag a).toNat = a.toNat % 2 := by
  rw [shrFlag, BitVec.toNat_and]; exact Nat.and_one_is_mod _

/-- Bit 7 of a byte is set exactly in the bytes from 0x80 up, and masking keeps it in its place (R162). -/
theorem shlFlag_eq (a : Byte) : shlFlag a = if 0x80 ≤ a.toNat then 0x80 else 0x00 := by
  have hbit : a.getLsbD 7 = decide (0x80 ≤ a.toNat) := a.msb_eq_decide
  have hmask : shlFlag a = if a.getLsbD 7 then 0x80 else 0x00 := BitVec.and_twoPow a 7
  simp only [hmask, hbit, decide_eq_true_eq]

theorem toNat_shiftRight_one (a : Byte) : (a >>> 1).toNat = a.toNat / 2 := by
  rw [BitVec.toNat_ushiftRight, Nat.shiftRight_one]

theorem toNat_shiftLeft_one (a : Byte) : (a <<< 1).toNat = a.toNat * 2 % 256 := by
  rw [BitVec.toNat_shiftLeft, Nat.shiftLeft_eq]

/-- The difference mod 256 as the remainder of the integer difference, which is never negative (R159). -/
theorem toNat_sub_byte (a b : Byte) : ((a - b).toNat : Int) = ((a.toNat : Int) - b.toNat) % 256 := by
  have := b.isLt
  rw [BitVec.toNat_sub]
  omega

@[simp] theorem State.getV_writePlain_self (s : State) (x : Reg) (a : Byte) : (s.writePlain x a).getV x = a :=
  (s.getV_writePlain x x a).trans (if_pos rfl)

@[simp] theorem State.getV_writeFlagged_regF (s : State) (x : Reg) (a f : Byte) :
    (s.writeFlagged x a f).getV regF = f :=
  (s.getV_writeFlagged x regF a f).trans (if_pos rfl)

/-- The destination keeps its result unless it is VF itself, where the flag is written last (10_state.md R22). -/
theorem State.getV_writeFlagged_of_ne (s : State) {x : Reg} (a f : Byte) (hx : x ≠ regF) :
    (s.writeFlagged x a f).getV x = a := by
  rw [State.getV_writeFlagged, if_neg hx, if_pos rfl]

/-- Settles O31. -/
theorem loadRegister : Obligations.LoadRegister := by
  unfold Obligations.LoadRegister
  intro x y kk s
  exact ⟨decode_encode (.ldVxKk x kk), decode_encode (.ldVxVy x y),
    ⟨_, rfl, s.getV_writePlain_self x kk, toNat_add_two s.pc, sameOutside_writePlain s x kk⟩,
    ⟨_, rfl, s.getV_writePlain_self x _, toNat_add_two s.pc, sameOutside_writePlain s x _⟩⟩

/-- Settles O32. -/
theorem addImmediate : Obligations.AddImmediate := by
  unfold Obligations.AddImmediate
  intro x kk s
  refine ⟨decode_encode (.addVxKk x kk), _, rfl, ?_, toNat_add_two s.pc, sameOutside_writePlain s x _⟩
  rw [State.getV_writePlain_self, BitVec.toNat_add]

/-- Settles O33. -/
theorem bitwiseRegisters : Obligations.BitwiseRegisters := by
  unfold Obligations.BitwiseRegisters
  intro x y s
  refine ⟨decode_encode (.orVxVy x y), decode_encode (.andVxVy x y), decode_encode (.xorVxVy x y),
    ⟨_, rfl, fun k _ => ?_, toNat_add_two s.pc, sameOutside_writePlain s x _⟩,
    ⟨_, rfl, fun k _ => ?_, toNat_add_two s.pc, sameOutside_writePlain s x _⟩,
    ⟨_, rfl, fun k _ => ?_, toNat_add_two s.pc, sameOutside_writePlain s x _⟩⟩
  · rw [State.getV_writePlain_self, BitVec.getLsbD_or]
  · rw [State.getV_writePlain_self, BitVec.getLsbD_and]
  · rw [State.getV_writePlain_self, BitVec.getLsbD_xor]

/-- Settles O34. -/
theorem addRegisters : Obligations.AddRegisters := by
  unfold Obligations.AddRegisters
  intro x y s
  refine ⟨decode_encode (.addVxVy x y), _, rfl, fun hx => ?_, ?_, toNat_add_two s.pc,
    sameOutside_writeFlagged s x _ _⟩
  · rw [State.getV_writeFlagged_of_ne _ _ _ hx, BitVec.toNat_add]
  · rw [State.getV_writeFlagged_regF, carryFlag, flagByte_decide]

/-- What SUB and SUBN share: the difference a - b in V[x] and the strict comparison in VF (R159, R161). -/
theorem writeFlagged_difference (s : State) (x : Reg) (a b : Byte) {t : State}
    (ht : t = s.writeFlagged x (a - b) (greaterFlag a b)) :
    (x ≠ regF → ((t.getV x).toNat : Int) = ((a.toNat : Int) - b.toNat) % 256) ∧
      t.getV regF = (if b.toNat < a.toNat then 0x01 else 0x00) ∧
      t.pc.toNat = (s.pc.toNat + 2) % 65536 ∧ SameOutside (· ∈ [.pc, .reg x, .reg regF]) s t := by
  subst ht
  refine ⟨fun hx => ?_, ?_, toNat_add_two s.pc, sameOutside_writeFlagged s x _ _⟩
  · rw [State.getV_writeFlagged_of_ne _ _ _ hx, toNat_sub_byte]
  · rw [State.getV_writeFlagged_regF, greaterFlag, flagByte_decide]

/-- Settles O35: SUBN is SUB with the operands exchanged. -/
theorem subtractRegisters : Obligations.SubtractRegisters := by
  unfold Obligations.SubtractRegisters
  intro x y s
  exact ⟨decode_encode (.subVxVy x y), decode_encode (.subnVxVy x y),
    ⟨_, rfl, writeFlagged_difference s x (s.getV x) (s.getV y) rfl⟩,
    ⟨_, rfl, writeFlagged_difference s x (s.getV y) (s.getV x) rfl⟩⟩

/-- Settles O36. -/
theorem shiftRight : Obligations.ShiftRight := by
  unfold Obligations.ShiftRight
  intro x y s
  refine ⟨decode_encode (.shr x y), _, rfl, fun hx => ?_, ?_, toNat_add_two s.pc, sameOutside_writeFlagged s x _ _⟩
  · rw [State.getV_writeFlagged_of_ne _ _ _ hx, toNat_shiftRight_one]
  · rw [State.getV_writeFlagged_regF, toNat_shrFlag]

/-- Settles O37. -/
theorem shiftLeft : Obligations.ShiftLeft := by
  unfold Obligations.ShiftLeft
  intro x y s
  refine ⟨decode_encode (.shl x y), _, rfl, fun hx => ?_, ?_, toNat_add_two s.pc, sameOutside_writeFlagged s x _ _⟩
  · rw [State.getV_writeFlagged_of_ne _ _ _ hx, toNat_shiftLeft_one]
  · rw [State.getV_writeFlagged_regF, shlFlag_eq]

theorem SameOutside.trans {c : Part → Prop} {s t u : State} (hst : SameOutside c s t) (htu : SameOutside c t u) :
    SameOutside c s u := by
  intro p hp
  have h1 := hst p hp
  have h2 := htu p hp
  cases p
  case pauseState => exact ⟨h2.1.trans h1.1, h2.2.trans h1.2⟩
  all_goals exact Eq.trans h2 h1

theorem sameOutside_countDraw (s : State) : SameOutside (· = .draws) s s.countDraw := by
  intro p hp; cases p <;> simp [SamePart] at *

/-- RND counts its draw and then writes V[x], whatever byte was drawn (R170, log 3). -/
theorem sameOutside_rndWith (r : Byte) (x : Reg) (kk : Byte) (s : State) :
    SameOutside (· ∈ [.pc, .reg x, .draws]) s (rndWith r x kk s) := by
  have hdraw : SameOutside (· ∈ [.pc, .reg x, .draws]) s s.countDraw :=
    (sameOutside_countDraw s).mono fun p hp => by simp [hp]
  have hwrite : SameOutside (· ∈ [.pc, .reg x, .draws]) s.countDraw (rndWith r x kk s) :=
    (sameOutside_writePlain s.countDraw x (r &&& kk)).mono fun p hp => List.mem_append_left [Part.draws] hp
  exact hdraw.trans hwrite

theorem getV_rndWith (r : Byte) (x : Reg) (kk : Byte) (s : State) : (rndWith r x kk s).getV x = r &&& kk :=
  s.countDraw.getV_writePlain_self x (r &&& kk)

/-- Settles O38. -/
theorem randomMasked : Obligations.RandomMasked := by
  unfold Obligations.RandomMasked
  intro x kk s
  exact ⟨decode_encode (.rnd x kk),
    ⟨_, rfl, getV_rndWith _ x kk s, rfl, toNat_add_two s.pc, sameOutside_rndWith _ x kk s⟩,
    fun r => ⟨getV_rndWith r x kk s, sameOutside_rndWith r x kk s⟩⟩

end Sys2Proof.Machine
end

section
/-! Jumps, CALL, RET and the skips (42_control_flow.md R190 to R198): the frame of a stack change with its jump, PC
after a skip, and the fetch fault that waits at a PC outside the array (R122). -/

namespace Sys2Proof.Machine

/-- A running block whose PC is above 0xFFE faults at its next FETCH (40_execution.md R122). -/
theorem nextFetchFaults_of_pc_outside {t : State} (hrun : t.Running) (hpc : 0xFFE < t.pc.toNat) : NextFetchFaults t :=
  ⟨_, step_of_pc_outside hrun hpc, haltedBy_takeFault t _ _ _⟩

theorem toNat_zextAddr (nnn : Addr) : (zextAddr nnn).toNat = nnn.toNat := by
  rw [zextAddr, BitVec.toNat_setWidth_of_le (by decide)]

theorem toNat_zextByte (b : Byte) : (zextByte b).toNat = b.toNat := by
  rw [zextByte, BitVec.toNat_setWidth_of_le (by decide)]

/-- The modulo of JP V0 never applies: 0xFFF + 0xFF = 0x10FE fits in PC (R197). -/
theorem toNat_zextAddr_add_zextByte (nnn : Addr) (b : Byte) :
    (zextAddr nnn + zextByte b).toNat = nnn.toNat + b.toNat := by
  have := nnn.isLt
  have := b.isLt
  rw [BitVec.toNat_add, toNat_zextAddr, toNat_zextByte]
  omega

theorem sameOutside_push (s : State) (a : Word) : SameOutside (· = .stack) s (s.push a) := by
  intro p hp; cases p <;> simp [SamePart] at *

theorem sameOutside_dropTop (s : State) : SameOutside (· = .stack) s s.dropTop := by
  intro p hp; cases p <;> simp [SamePart] at *

/-- The frame of CALL and of RET: a change of the stack, then a jump. -/
theorem SameOutside.setPc {s t : State} (h : SameOutside (· = .stack) s t) (a : Word) :
    SameOutside (· ∈ [.pc, .stack]) s (t.setPc a) :=
  (h.mono fun p hp => by simp [hp]).trans ((sameOutside_setPc t a).mono fun p hp => by simp [hp])

theorem exec_ret_of_empty {s : State} (h : s.stack = []) :
    exec .ret s = .next (s.takeFault .stackUnderflow (some 0x00EE) none) := by
  rw [exec, execRet, s.top_eq_none.2 h]; rfl

/-- CALL with no room on the stack; above 16 entries too (log 8). -/
theorem exec_call_of_full {s : State} (nnn : Addr) (h : 16 ≤ s.stack.length) :
    exec (.call nnn) s = .next (s.takeFault .stackOverflow (some (0x2#4 ++ nnn)) none) := by
  rw [exec, execCall, if_neg (Nat.not_lt.2 h)]; rfl

/-- Settles O23: the last entry is the top that RET pops, and with no entry there is no top. -/
theorem returnPopsPc : Obligations.ReturnPopsPc := by
  unfold Obligations.ReturnPopsPc
  refine ⟨rfl, fun s => ⟨fun rest a hstack => ?_, fun hempty => ?_⟩⟩
  · have htop : s.top = some a := by rw [State.top, hstack, List.getLast?_concat]
    have hrest : s.dropTop.stack = rest := by rw [State.dropTop_stack, hstack, List.dropLast_concat]
    exact ⟨_, exec_ret_of_top htop, rfl, hrest, (sameOutside_dropTop s).setPc a,
      fun hrun hpc => nextFetchFaults_of_pc_outside hrun hpc⟩
  · exact ⟨_, exec_ret_of_empty hempty, haltedBy_takeFault s _ _ _⟩

/-- Settles O24, with and without room on the stack. -/
theorem callPushesReturn : Obligations.CallPushesReturn := by
  unfold Obligations.CallPushesReturn
  refine fun nnn s => ⟨decode_encode (.call nnn), fun hroom => ?_, fun hfull => ?_⟩
  · exact ⟨_, s.pc + 2, exec_call_of_room nnn hroom, rfl, toNat_add_two s.pc, toNat_zextAddr nnn,
      (sameOutside_push s _).setPc _⟩
  · exact ⟨_, exec_call_of_full nnn hfull.ge, haltedBy_takeFault s _ _ _⟩

/-- Settles O26: 0xFFF is above 0xFFE, so the FETCH there faults. -/
theorem jumpSetsPc : Obligations.JumpSetsPc := by
  unfold Obligations.JumpSetsPc
  intro nnn s
  refine ⟨decode_encode (.jp nnn), _, rfl, toNat_zextAddr nnn, sameOutside_setPc s _, fun hrun htarget => ?_⟩
  subst htarget
  have hpc : 0xFFE < (zextAddr 0xFFF).toNat := by decide
  exact nextFetchFaults_of_pc_outside hrun hpc

/-- Settles O27. -/
theorem jumpOffsetV0 : Obligations.JumpOffsetV0 := by
  unfold Obligations.JumpOffsetV0
  intro nnn s
  have hsum := toNat_zextAddr_add_zextByte nnn (s.getV reg0)
  have hbound : (zextAddr nnn + zextByte (s.getV reg0)).toNat ≤ 0x10FE := by
    have := nnn.isLt
    have := (s.getV reg0).isLt
    omega
  exact ⟨decode_encode (.jpV0 nnn), _, rfl, hsum, hbound, sameOutside_setPc s _,
    fun hrun hpc => nextFetchFaults_of_pc_outside hrun hpc⟩

/-- PC after a skip, as a number (R198). -/
theorem toNat_pc_skipIf (s : State) (c : Bool) :
    (s.skipIf c).pc.toNat = (s.pc.toNat + if c then 4 else 2) % 65536 := by
  rw [State.skipIf_eq, State.setPc_pc]
  cases c
  · exact toNat_add_two s.pc
  · exact toNat_add_four s.pc

/-- What the SE instructions share: the skip is taken exactly when the operands are equal (R193, R195). -/
theorem skipIf_beq (s : State) (a b : Byte) :
    (s.skipIf (a == b)).pc.toNat = (s.pc.toNat + if a = b then 4 else 2) % 65536 ∧
      SameOutside (· = .pc) s (s.skipIf (a == b)) := by
  refine ⟨?_, sameOutside_skipIf s _⟩
  simp only [toNat_pc_skipIf, beq_iff_eq]

/-- What the SNE instructions share: the skip is taken exactly when the operands differ (R194, R196). -/
theorem skipIf_bne (s : State) (a b : Byte) :
    (s.skipIf (a != b)).pc.toNat = (s.pc.toNat + if a = b then 2 else 4) % 65536 ∧
      SameOutside (· = .pc) s (s.skipIf (a != b)) := by
  refine ⟨?_, sameOutside_skipIf s _⟩
  simp only [toNat_pc_skipIf, bne_iff_ne, ite_not]

/-- Settles O28. -/
theorem skipOnImmediate : Obligations.SkipOnImmediate := by
  unfold Obligations.SkipOnImmediate
  intro x kk s
  exact ⟨decode_encode (.seVxKk x kk), decode_encode (.sneVxKk x kk),
    ⟨_, rfl, skipIf_beq s (s.getV x) kk⟩, ⟨_, rfl, skipIf_bne s (s.getV x) kk⟩⟩

/-- Settles O29: n selects nothing, neither in the decoder nor in the two meanings (30_encoding.md R98). -/
theorem skipOnRegisters : Obligations.SkipOnRegisters := by
  unfold Obligations.SkipOnRegisters
  intro x y n s
  exact ⟨decode_encode (.seVxVy x y n), decode_encode (.sneVxVy x y n),
    ⟨_, rfl, skipIf_beq s (s.getV x) (s.getV y)⟩, ⟨_, rfl, skipIf_bne s (s.getV x) (s.getV y)⟩⟩

end Sys2Proof.Machine
end

section
/-! CLS and DRW (43_display.md R221 to R227): the sprite engine's hits are the cells `SpriteCovers` names, the state after
a draw part by part, and two draws of one sprite at one place. -/

namespace Sys2Proof.Machine

/-- A block instruction that uses an address above 0xFFF faults with the first such address (60_exceptions.md R315). -/
theorem State.withBlock_of_outside (s : State) (ins : Instr) {len : Nat} (done : State) (hlen : 1 ≤ len)
    (h : 0xFFF < s.i.toNat + len - 1) :
    s.withBlock ins len done =
      .next (s.takeFault .addressOutOfRange (some (encode ins)) (some (max s.i.toNat 0x1000))) := by
  have hout : firstOutside s.i.toNat len = some (max s.i.toNat 0x1000) := if_neg (by omega)
  rw [State.withBlock, hout]

theorem sameOutside_setFb (s : State) (fb : FrameBuffer) : SameOutside (∃ a b, · = .pixel a b) s (s.setFb fb) := by
  intro p hp; cases p <;> simp [SamePart] at *

theorem sameOutside_setV (s : State) (r : Reg) (b : Byte) : SameOutside (· = .reg r) s (s.setV r b) := by
  intro p hp
  cases p
  case reg q => exact s.getV_setV_of_ne b fun hq => hp (congrArg Part.reg hq)
  all_goals simp [SamePart]

/-- The frame that CLS and DRW share: the pre-advance and the new buffer. -/
theorem sameOutside_advance_setFb (s : State) (fb : FrameBuffer) :
    SameOutside (fun p => p = .pc ∨ ∃ a b, p = .pixel a b) s (s.advance.setFb fb) := by
  refine SameOutside.trans (t := s.advance) ?_ ?_
  · exact (sameOutside_setPc s (s.pc + 2)).mono fun p hp => .inl hp
  · exact (sameOutside_setFb s.advance fb).mono fun p hp => .inr hp

/-- Settles O20. -/
theorem clearScreen : Obligations.ClearScreen := by
  unfold Obligations.ClearScreen
  intro s
  exact ⟨rfl, _, rfl, fun x y _ _ => FrameBuffer.pixel_clear x y, toNat_add_two s.pc, sameOutside_advance_setFb s _⟩

/-- The hits of the sprite's bytes, as the engine scans them, are the cells the sprite covers (R223, R226). -/
theorem rowsHit_readBytes (s : State) (xs ys n cx cy : Nat) :
    RowsHit xs ys (s.mem.readBytes s.i.toNat n) cx cy ↔ SpriteCovers s xs ys n (cx % 64) (cy % 32) := by
  constructor
  · rintro ⟨r, hr, c, hc, hbit, hx, hy⟩
    rw [Memory.getElem_readBytes] at hbit
    exact ⟨r, c, by simpa using hr, (mem_spriteColumns c).1 hc, hbit, hx, hy⟩
  · rintro ⟨r, c, hr, hc, hbit, hx, hy⟩
    refine ⟨r, by simpa using hr, c, (mem_spriteColumns c).2 hc, ?_, hx, hy⟩
    rwa [Memory.getElem_readBytes]

theorem SpriteCovers.bounds {s : State} {xs ys n cx cy : Nat} (h : SpriteCovers s xs ys n cx cy) :
    cx < 64 ∧ cy < 32 := by
  obtain ⟨r, c, -, -, -, rfl, rfl⟩ := h
  exact ⟨Nat.mod_lt _ (by decide), Nat.mod_lt _ (by decide)⟩

/-- A set bit of the sprite of Dxyn lands on a cell that is on (R224). -/
def Collides (s : State) (x y : Reg) (n : Nibble) : Prop :=
  ∃ cx cy, SpriteCovers s (s.getV x).toNat (s.getV y).toNat n.toNat cx cy ∧ s.fb.pixel cx cy = true

/-- A sprite of Dxyn has at most 15 rows, so no row wraps onto another one (R225). -/
theorem length_spriteBytes_le (s : State) (n : Nibble) : (s.mem.readBytes s.i.toNat n.toNat).length ≤ 32 := by
  have := n.isLt
  rw [Memory.length_readBytes]; omega

theorem pixel_draw (s : State) (x y : Reg) (n : Nibble) {cx cy : Nat} (hx : cx < 64) (hy : cy < 32) :
    (s.draw x y n).fb.pixel cx cy = true ↔
      ¬ (s.fb.pixel cx cy = true ↔ SpriteCovers s (s.getV x).toNat (s.getV y).toNat n.toNat cx cy) := by
  have hcell := pixel_drawRows (s.getV x).toNat _ (s.getV y).toNat (length_spriteBytes_le s n) s.fb cx cy
  rwa [rowsHit_readBytes, Nat.mod_eq_of_lt hx, Nat.mod_eq_of_lt hy] at hcell

theorem hit_drawRows_iff_collides (s : State) (x y : Reg) (n : Nibble) :
    (drawRows (s.getV x).toNat (s.getV y).toNat (s.mem.readBytes s.i.toNat n.toNat) s.fb).2 = true ↔
      Collides s x y n := by
  rw [hit_drawRows _ _ _ (length_spriteBytes_le s n)]
  constructor
  · rintro ⟨cx, cy, hcover, hon⟩
    exact ⟨cx % 64, cy % 32, (rowsHit_readBytes ..).1 hcover, (s.fb.pixel_mod cx cy).trans hon⟩
  · rintro ⟨cx, cy, hcover, hon⟩
    obtain ⟨hx, hy⟩ := hcover.bounds
    refine ⟨cx, cy, (rowsHit_readBytes ..).2 ?_, hon⟩
    rwa [Nat.mod_eq_of_lt hx, Nat.mod_eq_of_lt hy]

theorem getV_draw_regF_of_collides {s : State} {x y : Reg} {n : Nibble} (h : Collides s x y n) :
    (s.draw x y n).getV regF = 0x01 := by
  rw [State.draw, (hit_drawRows_iff_collides s x y n).2 h]
  exact State.getV_setV_self _ _ _

theorem getV_draw_regF_of_not_collides {s : State} {x y : Reg} {n : Nibble} (h : ¬ Collides s x y n) :
    (s.draw x y n).getV regF = 0x00 := by
  rw [State.draw, Bool.eq_false_iff.2 (mt (hit_drawRows_iff_collides s x y n).1 h)]
  exact State.getV_setV_self _ _ _

/-- The frame of a draw: CLS's parts, then the flag. -/
theorem sameOutside_draw (s : State) (x y : Reg) (n : Nibble) :
    SameOutside (fun p => p = .pc ∨ p = .reg regF ∨ ∃ a b, p = .pixel a b) s (s.draw x y n) := by
  refine SameOutside.trans ?_ ((sameOutside_setV _ regF _).mono fun p hp => .inr (.inl hp))
  exact (sameOutside_advance_setFb s _).mono fun p hp => hp.imp_right .inr

theorem exec_drw_of_inside {s : State} (x y : Reg) {n : Nibble} (h : n.toNat = 0 ∨ s.i.toNat + n.toNat - 1 ≤ 0xFFF) :
    exec (.drw x y n) s = .next (s.draw x y n) :=
  s.withBlock_of_inside _ _ _ h

/-- Settles O21: the sprite's bytes are inside the array, or the draw faults before any change. -/
theorem drawSprite : Obligations.DrawSprite := by
  unfold Obligations.DrawSprite
  refine fun x y n s => ⟨decode_encode (.drw x y n), fun hin => ?_, fun hn hout => ?_⟩
  · exact ⟨_, exec_drw_of_inside x y hin, fun cx cy hx hy => pixel_draw s x y n hx hy, getV_draw_regF_of_collides,
      getV_draw_regF_of_not_collides, toNat_add_two s.pc, sameOutside_draw s x y n⟩
  · exact ⟨_, s.withBlock_of_outside _ _ hn hout, haltedBy_takeFault s _ _ _⟩

/-- A draw changes neither memory nor I, so it leaves every sprite as it was. -/
theorem spriteCovers_draw (s : State) (x y : Reg) (n : Nibble) (xs ys m cx cy : Nat) :
    SpriteCovers (s.draw x y n) xs ys m cx cy ↔ SpriteCovers s xs ys m cx cy :=
  Iff.rfl

/-- Settles O22: both draws cover the same cells, and a cell flipped twice is as before; a cell the first draw turned on
is covered, so the second draw finds it on. -/
theorem drawTwiceRestores : Obligations.DrawTwiceRestores := by
  unfold Obligations.DrawTwiceRestores
  intro x y x' y' n s t hin hexec hx' hy'
  obtain rfl : s.draw x y n = t := Host.Outcome.next.inj ((exec_drw_of_inside x y hin).symm.trans hexec)
  refine ⟨_, exec_drw_of_inside x' y' hin, fun cx cy hx hy => ?_, ?_⟩
  · have hfirst := pixel_draw s x y n hx hy
    have hsecond := pixel_draw (s.draw x y n) x' y' n hx hy
    rw [hx', hy', spriteCovers_draw] at hsecond
    rw [Bool.eq_iff_iff]
    tauto
  · rintro ⟨cx, cy, hx, hy, hoff, hon⟩
    have hcover : SpriteCovers s (s.getV x).toNat (s.getV y).toNat n.toNat cx cy := by
      simpa [hoff] using (pixel_draw s x y n hx hy).1 hon
    have hcol : Collides (s.draw x y n) x' y' n := ⟨cx, cy, by rwa [hx', hy', spriteCovers_draw], hon⟩
    exact getV_draw_regF_of_collides hcol

end Sys2Proof.Machine
end

section
/-! Keys and timers (44_keys_timers.md): the key test and its skips (R250 to R252), the timer moves (R253, R255, R256),
the key wait and its end (R254, R260), TICK (R262), the outputs (R263), and that only Ex9E and ExA1 sample KEYS and only
Cxkk samples RAND (R250, R265; 41_alu.md R170). -/

namespace Sys2Proof.Machine

/-- The state with KEYS and the count of draws changed by `f` and `g`: the two fields for inputs (log 2, log 3). -/
def State.mapInputs (s : State) (f : Word → Word) (g : Nat → Nat) : State :=
  { s with keys := f s.keys, draws := g s.draws }

theorem State.mapInputs_i (s : State) (f : Word → Word) (g : Nat → Nat) : (s.mapInputs f g).i = s.i := rfl

theorem State.skipIf_mapInputs (s : State) (f : Word → Word) (g : Nat → Nat) (c : Bool) :
    (s.mapInputs f g).skipIf c = (s.skipIf c).mapInputs f g := by
  rw [State.skipIf_eq, State.skipIf_eq]; rfl

/-- The range check of a block instruction looks at I alone (45_index_memory.md R286). -/
theorem State.withBlock_mapInputs {s t : State} {ins : Instr} {len : Nat} {done : State} (f : Word → Word)
    (g : Nat → Nat) (h : s.withBlock ins len done = .next t) :
    (s.mapInputs f g).withBlock ins len (done.mapInputs f g) = .next (t.mapInputs f g) := by
  rw [State.withBlock] at h ⊢
  rw [State.mapInputs_i]
  cases hout : firstOutside s.i.toNat len <;> rw [hout] at h <;> cases h <;> rfl

/-- EXECUTE carries a change of KEYS along unless it is Ex9E or ExA1, and a change of the count of draws unless it is
Cxkk; RET and CALL decide on the stack, and the block instructions on I. -/
theorem exec_mapInputs {i : Instr} {s t : State} {f : Word → Word} {g : Nat → Nat} (h : exec i s = .next t)
    (hkeys : (∃ x, i = .skp x ∨ i = .sknp x) → f = id) (hdraws : (∃ x kk, i = .rnd x kk) → g = id) :
    exec i (s.mapInputs f g) = .next (t.mapInputs f g) := by
  cases i
  case skp x | sknp x =>
    obtain rfl := hkeys ⟨x, by simp⟩
    cases h
    exact congrArg Host.Outcome.next (s.skipIf_mapInputs id g _)
  case rnd x kk =>
    obtain rfl := hdraws ⟨x, kk, rfl⟩
    cases h; rfl
  case seVxKk | sneVxKk | seVxVy | sneVxVy =>
    cases h
    exact congrArg Host.Outcome.next (s.skipIf_mapInputs f g _)
  case ret =>
    cases htop : s.top with
    | some a => cases (exec_ret_of_top htop).symm.trans h; exact exec_ret_of_top htop
    | none =>
      have hempty := s.top_eq_none.1 htop
      cases (exec_ret_of_empty hempty).symm.trans h; exact exec_ret_of_empty hempty
  case call nnn =>
    by_cases hroom : s.stack.length < 16
    · cases (exec_call_of_room nnn hroom).symm.trans h; exact exec_call_of_room nnn hroom
    · have hfull := Nat.not_lt.1 hroom
      cases (exec_call_of_full nnn hfull).symm.trans h; exact exec_call_of_full nnn hfull
  case drw | ldBVx | ldMemVx | ldVxMem => exact State.withBlock_mapInputs f g h
  all_goals cases h; rfl

/-- Settles O56: new KEYS, or a new count of draws, is one change of the two input fields. -/
theorem inputsSampledOnlyBy : Obligations.InputsSampledOnlyBy := by
  unfold Obligations.InputsSampledOnlyBy
  refine fun i s t k d h => ⟨fun hi => ?_, fun hi => ?_⟩
  · have hkeys : (∃ x, i = .skp x ∨ i = .sknp x) → (fun _ => k) = id :=
      fun ⟨x, hx⟩ => (hx.elim (hi x).1 (hi x).2).elim
    exact exec_mapInputs h hkeys fun _ => rfl
  · have hdraws : (∃ x kk, i = .rnd x kk) → (fun _ => d) = id := fun ⟨x, kk, hx⟩ => absurd hx (hi x kk)
    exact exec_mapInputs h (fun _ => rfl) hdraws

theorem held_iff (keys : Word) (v : Byte) : held keys v = true ↔ v.toNat ≤ 0xF ∧ keys.getLsbD v.toNat = true := by
  rw [held, Bool.and_eq_true, decide_eq_true_iff]

/-- Settles O39: SKNP is taken exactly when SKP is not. -/
theorem skipOnKey : Obligations.SkipOnKey := by
  unfold Obligations.SkipOnKey
  refine fun x s => ⟨decode_encode (.skp x), decode_encode (.sknp x),
    ⟨_, rfl, sameOutside_skipIf s _, ?_⟩, ⟨_, rfl, sameOutside_skipIf s _, ?_⟩⟩
  · simp only [toNat_pc_skipIf, held_iff]
  · simp only [toNat_pc_skipIf, Bool.not_eq_true', ← Bool.not_eq_true, held_iff, ite_not]

theorem sameOutside_setDt (s : State) (b : Byte) : SameOutside (· = .delayTimer) s (s.setDt b) := by
  intro p hp; cases p <;> simp [SamePart] at *

theorem sameOutside_setSt (s : State) (b : Byte) : SameOutside (· = .soundTimer) s (s.setSt b) := by
  intro p hp; cases p <;> simp [SamePart] at *

theorem sameOutside_startWait (s : State) (r : Reg) : SameOutside (· = .pauseState) s (s.startWait r) := by
  intro p hp; cases p <;> simp [SamePart] at *

theorem sameOutside_endWait (s : State) : SameOutside (· = .pauseState) s s.endWait := by
  intro p hp; cases p <;> simp [SamePart] at *

/-- Two updates in a row, each of one part, change these two parts only. -/
theorem SameOutside.pair {p q : Part} {s t u : State} (hst : SameOutside (· = p) s t)
    (htu : SameOutside (· = q) t u) : SameOutside (· ∈ [p, q]) s u :=
  (hst.mono fun r hr => by simp [hr]).trans (htu.mono fun r hr => by simp [hr])

/-- The pre-advance changes PC alone (40_execution.md R124). -/
theorem sameOutside_advance (s : State) : SameOutside (· = .pc) s s.advance := sameOutside_setPc s _

/-- Settles O40. -/
theorem timerMoves : Obligations.TimerMoves := by
  unfold Obligations.TimerMoves
  intro x s
  exact ⟨decode_encode (.ldVxDt x), decode_encode (.ldDtVx x), decode_encode (.ldStVx x),
    ⟨_, rfl, s.getV_writePlain_self x s.dt, toNat_add_two s.pc, sameOutside_writePlain s x s.dt⟩,
    ⟨_, rfl, rfl, toNat_add_two s.pc, (sameOutside_advance s).pair (sameOutside_setDt s.advance _)⟩,
    ⟨_, rfl, rfl, toNat_add_two s.pc, (sameOutside_advance s).pair (sameOutside_setSt s.advance _)⟩⟩

/-- Settles O41. -/
theorem keyWaitStarts : Obligations.KeyWaitStarts := by
  unfold Obligations.KeyWaitStarts
  intro x s
  exact ⟨decode_encode (.ldVxK x), _, rfl, rfl, rfl, toNat_add_two s.pc,
    (sameOutside_advance s).pair (sameOutside_startWait s.advance x)⟩

/-- KEY_PRESS in a wait that has its register (44_keys_timers.md R260). -/
theorem State.keyPress_of_waiting {s : State} {r : Reg} (k : Nibble) (hs : s.control = .waitKey)
    (hr : s.waitReg = some r) : s.keyPress k = (s.setV r (k.setWidth 8)).endWait := by
  rw [State.keyPress, hs, hr]

/-- Settles O42: in the wait the two updates of R260, outside it R261. -/
theorem keyPressDelivers : Obligations.KeyPressDelivers := by
  unfold Obligations.KeyPressDelivers
  refine fun s k => ⟨fun r hfault hpaused hr => ?_, fun hout => ?_⟩
  · rw [State.keyPress_of_waiting k (s.control_eq_waitKey.2 ⟨hfault, hpaused⟩) hr]
    refine ⟨?_, rfl, rfl, (sameOutside_setV s r _).pair (sameOutside_endWait _)⟩
    rw [State.getV_endWait, State.getV_setV_self, BitVec.toNat_setWidth_of_le (by decide)]
  · refine State.keyPress_of_not_waiting k fun hwait => ?_
    obtain ⟨hfault, hpaused⟩ := s.control_eq_waitKey.1 hwait
    rcases hout with h | h
    · cases hpaused.symm.trans h
    · exact absurd hfault h

theorem toNat_tickTimer (t : Byte) : (tickTimer t).toNat = t.toNat - 1 := by
  unfold tickTimer
  split
  · subst t; rfl
  · bv_omega

theorem State.tick_of_running {s : State} (h : s.Running) :
    s.tick = (s.setDt (tickTimer s.dt)).setSt (tickTimer s.st) := by
  rw [State.tick, s.control_eq_run.2 h]

/-- Outside RUN a TICK is accepted and ignored (44_keys_timers.md R262, 60_exceptions.md R316). -/
theorem State.tick_of_not_running {s : State} (h : ¬ s.Running) : s.tick = s := by
  unfold State.tick
  split
  next hrun => exact absurd (s.control_eq_run.1 hrun) h
  next => rfl
  next => rfl

/-- Settles O43. -/
theorem tickDecrements : Obligations.TickDecrements := by
  unfold Obligations.TickDecrements
  refine fun s => ⟨fun hfault hpaused => ?_, fun hout => State.tick_of_not_running fun ⟨hfault, hpaused⟩ => ?_⟩
  · rw [State.tick_of_running ⟨hfault, hpaused⟩]
    exact ⟨toNat_tickTimer s.dt, toNat_tickTimer s.st, (sameOutside_setDt s _).pair (sameOutside_setSt _ _)⟩
  · rcases hout with h | h
    · cases hpaused.symm.trans h
    · exact absurd hfault h

/-- Settles O44: a waiting block is not in RUN, so TICK and STEP leave it as it is. -/
theorem outputsFollowState : Obligations.OutputsFollowState := by
  unfold Obligations.OutputsFollowState
  refine fun s => ⟨bne_iff_ne, rfl, rfl, fun _ _ => rfl, fun hwait => ?_⟩
  have hn : ¬ s.Running := fun hrun => nomatch hwait.symm.trans (s.control_eq_run.2 hrun)
  exact ⟨congrArg State.soundOut (State.tick_of_not_running hn), step_of_not_running hn⟩

end Sys2Proof.Machine
end

section
/-! The address register and the memory instructions (45_index_memory.md R280 to R286): what a block of stores and a
block of register loads leave unchanged, and the range check that comes before both. -/

namespace Sys2Proof.Machine

theorem sameOutside_setI (s : State) (a : Word) : SameOutside (· = .addressReg) s (s.setI a) := by
  intro p hp; cases p <;> simp [SamePart] at *

/-- ADD I, Vx wraps at 65536 (R281). -/
theorem toNat_add_zextByte (w : Word) (b : Byte) : (w + zextByte b).toNat = (w.toNat + b.toNat) % 65536 := by
  rw [BitVec.toNat_add, toNat_zextByte]

/-- No glyph address is cut: 5 * 0xFF fits in I (R282). -/
theorem toNat_glyphAddress (a : Byte) : (glyphAddress a).toNat = 5 * a.toNat := by
  have := a.isLt
  rw [glyphAddress, BitVec.toNat_ofNat, Config.fontBase, Config.glyphBytes]
  omega

/-- The frame of the three instructions that write I. -/
theorem sameOutside_advance_setI (s : State) (a : Word) : SameOutside (· ∈ [.pc, .addressReg]) s (s.advance.setI a) :=
  (sameOutside_advance s).pair (sameOutside_setI s.advance a)

/-- Settles O46. -/
theorem addressRegister : Obligations.AddressRegister := by
  unfold Obligations.AddressRegister
  intro nnn x s
  exact ⟨decode_encode (.ldI nnn), decode_encode (.addIVx x), decode_encode (.ldFVx x),
    ⟨_, rfl, toNat_zextAddr nnn, toNat_add_two s.pc, sameOutside_advance_setI s _⟩,
    ⟨_, rfl, toNat_add_zextByte s.i (s.getV x), toNat_add_two s.pc, sameOutside_advance_setI s _⟩,
    ⟨_, rfl, toNat_glyphAddress (s.getV x), toNat_add_two s.pc, sameOutside_advance_setI s _⟩⟩

/-- Fx33, Fx55 and Fx65 with their last address I + m above 0xFFF halt the block and do nothing else (R286). -/
theorem State.withBlock_halts {s : State} {m : Nat} (ins : Instr) (done : State) (h : 0xFFF < s.i.toNat + m) :
    ∃ t, s.withBlock ins (m + 1) done = .next t ∧
      HaltedBy .addressOutOfRange (some (encode ins)) (some (max s.i.toNat 0x1000)) s t :=
  ⟨_, s.withBlock_of_outside ins done (Nat.le_add_left 1 m) h, haltedBy_takeFault s _ _ _⟩

/-- A run of stores changes its own bytes alone (20_memory.md R65). -/
theorem sameOutside_store {s : State} (hmem : s.MemOk) (base : Nat) (bytes : List Byte) :
    SameOutside (fun p => ∃ k, k < bytes.length ∧ p = .byte (base + k)) s (s.store base bytes) := by
  intro p hp
  cases p
  case byte a =>
    refine Memory.read_writeBytes_outside bytes hmem base a ?_
    by_contra hin
    exact hp ⟨a - base, by omega, congrArg Part.byte (by omega)⟩
  all_goals simp [SamePart]

/-- The frame that Fx33 and Fx55 share: the pre-advance and the stores. -/
theorem sameOutside_advance_store {s : State} (hmem : s.MemOk) (base : Nat) (bytes : List Byte) :
    SameOutside (fun p => p = .pc ∨ ∃ k, k < bytes.length ∧ p = .byte (base + k)) s (s.advance.store base bytes) := by
  refine SameOutside.trans (t := s.advance) ?_ ?_
  · exact (sameOutside_advance s).mono fun p hp => .inl hp
  · exact (sameOutside_store (s := s.advance) hmem base bytes).mono fun p hp => .inr hp

/-- The byte at `base + k` after a run of stores from `base` inside the array (20_memory.md R65). -/
theorem State.read_store {s : State} (hmem : s.MemOk) {base : Nat} {bytes : List Byte}
    (hin : base + bytes.length ≤ 0x1000) {k : Nat} (hk : k < bytes.length) :
    (s.store base bytes).mem.read (base + k) = bytes[k] := by
  rw [State.store_mem, Memory.read_writeBytes bytes hmem hin, dif_pos (by omega)]
  simp

@[simp] theorem length_bcdDigits (a : Byte) : (bcdDigits a).length = 3 := rfl

/-- The hundreds, tens and ones as numbers: each fits in a byte (R283). -/
theorem toNat_bcdDigits (a : Byte) :
    (bcdDigits a)[0].toNat = a.toNat / 100 ∧ (bcdDigits a)[1].toNat = a.toNat / 10 % 10 ∧
      (bcdDigits a)[2].toNat = a.toNat % 10 := by
  have := a.isLt
  simp only [bcdDigits, List.getElem_cons_zero, List.getElem_cons_succ, BitVec.toNat_ofNat]
  omega

/-- Settles O47: byte I + k is digit k. -/
theorem storeDigits : Obligations.StoreDigits := by
  unfold Obligations.StoreDigits
  refine fun x s => ⟨decode_encode (.ldBVx x), fun hmem hin => ?_, State.withBlock_halts (.ldBVx x) _⟩
  have hread (k : Nat) (hk : k < (bcdDigits (s.getV x)).length) :
      ((s.advance.store s.i.toNat (bcdDigits (s.getV x))).mem.read (s.i.toNat + k)).toNat =
        (bcdDigits (s.getV x))[k].toNat :=
    congrArg BitVec.toNat (State.read_store (s := s.advance) hmem (Nat.succ_le_succ hin) hk)
  obtain ⟨hhundreds, htens, hones⟩ := toNat_bcdDigits (s.getV x)
  exact ⟨_, s.withBlock_of_inside _ _ _ (.inr hin), (hread 0 _).trans hhundreds, (hread 1 _).trans htens,
    (hread 2 _).trans hones, toNat_add_two s.pc, sameOutside_advance_store hmem s.i.toNat (bcdDigits (s.getV x))⟩

/-- Settles O48: byte k of the block is V[k]. -/
theorem storeRegisters : Obligations.StoreRegisters := by
  unfold Obligations.StoreRegisters
  refine fun x s => ⟨decode_encode (.ldMemVx x), fun hmem hin => ?_, State.withBlock_halts (.ldMemVx x) _⟩
  have hframe := sameOutside_advance_store hmem s.i.toNat (s.regBlock x)
  simp only [State.length_regBlock, Nat.lt_succ_iff] at hframe
  exact ⟨_, exec_ldMemVx_of_inside x hin, fun r hr => Memory.read_writeBytes_regBlock hmem hin hr,
    toNat_add_two s.pc, hframe⟩

/-- The state after Fx65 with its block inside the array (R285). -/
def State.loadBlock (s : State) (x : Reg) : State :=
  s.advance.setRegs (s.v.load 0 (s.mem.readBytes s.i.toNat (x.toNat + 1)))

theorem exec_ldVxMem_of_inside {s : State} (x : Reg) (h : s.i.toNat + x.toNat ≤ 0xFFF) :
    exec (.ldVxMem x) s = .next (s.loadBlock x) :=
  s.withBlock_of_inside _ _ _ (.inr h)

/-- Fx65 loads V[r] from I + r for every r up to x, and keeps the registers above x (R285). -/
theorem State.getV_loadBlock (s : State) (x r : Reg) :
    (s.loadBlock x).getV r = if r.toNat ≤ x.toNat then s.mem.read (s.i.toNat + r.toNat) else s.getV r := by
  have hlen := Memory.length_readBytes s.mem s.i.toNat (x.toNat + 1)
  have := x.isLt
  rw [State.loadBlock, State.getV_setRegs, Regs.getElem_load _ _ _ (by omega)]
  by_cases hr : r.toNat ≤ x.toNat
  · rw [dif_pos (by omega), if_pos hr, Memory.getElem_readBytes]; rfl
  · rw [dif_neg (by omega), if_neg hr]; rfl

theorem sameOutside_loadBlock (s : State) (x : Reg) :
    SameOutside (fun p => p = .pc ∨ ∃ r : Reg, r.toNat ≤ x.toNat ∧ p = .reg r) s (s.loadBlock x) := by
  intro p hp
  cases p
  case reg r => exact (s.getV_loadBlock x r).trans (if_neg fun hr => hp (.inr ⟨r, hr, rfl⟩))
  case pc => exact absurd (.inl rfl) hp
  all_goals simp [SamePart, State.loadBlock]

/-- Settles O49. -/
theorem loadRegisters : Obligations.LoadRegisters := by
  unfold Obligations.LoadRegisters
  refine fun x s => ⟨decode_encode (.ldVxMem x), fun hin => ?_, State.withBlock_halts (.ldVxMem x) _⟩
  exact ⟨_, exec_ldVxMem_of_inside x hin, fun r hr => (s.getV_loadBlock x r).trans (if_pos hr),
    toNat_add_two s.pc, sameOutside_loadBlock s x⟩

end Sys2Proof.Machine
end

section
/-! Faults (60_exceptions.md R310 to R318): the condition of each kind of fault, that a STEP in RUN raises the fault
exactly then and changes nothing else, HALT, and frames in WAIT_KEY (R337). -/

namespace Sys2Proof.Machine

/-- The conditions under which a STEP in RUN raises each kind of fault (R312 to R315, R317); above 16 entries the
stack's is the model's choice (log 8). -/
def FaultCondition (s : State) : FaultKind → Prop
  | .unknownOpcode => s.pc.toNat ≤ 0xFFE ∧ legalWord s.fetchWord = false
  | .stackUnderflow => s.pc.toNat ≤ 0xFFE ∧ decode s.fetchWord = .ok .ret ∧ s.stack = []
  | .stackOverflow => s.pc.toNat ≤ 0xFFE ∧ (∃ nnn, decode s.fetchWord = .ok (.call nnn)) ∧ 16 ≤ s.stack.length
  | .addressOutOfRange => 0xFFE < s.pc.toNat ∨ ∃ i, decode s.fetchWord = .ok i ∧ UsesOutside s i

/-- What can have become of `fault` between `s` and `t`: no fault was raised, or `t` is `s` with one fault taken whose
condition held in `s` (R318). -/
def FaultOutcome (s t : State) : Prop :=
  t.fault = s.fault ∨ ∃ k w a, t = s.takeFault k w a ∧ FaultCondition s k

/-- The fault of DECODE: a word of no row of R99 does not decode (R314). -/
theorem step_of_illegal_word {s : State} (hrun : s.Running) (hpc : s.pc.toNat ≤ 0xFFE)
    (hillegal : legalWord s.fetchWord = false) :
    step s = .next (s.takeFault .unknownOpcode (some s.fetchWord) none) := by
  rcases s.stepFront_cases with ⟨h, -⟩ | ⟨-, h, -⟩ | ⟨-, -, -, hfront⟩ | ⟨-, -, i, hdec, -⟩
  · exact absurd hrun h
  · omega
  · rw [step, hfront]
  · cases hillegal.symm.trans ((exists_decode_iff_legalWord _).1 ⟨i, hdec⟩)

/-- An instruction that uses an address above 0xFFF faults, whichever of the four it is (R315). -/
theorem exec_of_usesOutside {s : State} {i : Instr} (h : UsesOutside s i) :
    ∃ w a, exec i s = .next (s.takeFault .addressOutOfRange w a) := by
  rcases h with ⟨x, y, n, rfl, hn, hout⟩ | ⟨x, rfl, hout⟩ | ⟨x, rfl | rfl, hout⟩
  · exact ⟨_, _, s.withBlock_of_outside _ _ hn hout⟩
  · exact ⟨_, _, s.withBlock_of_outside _ _ (by decide) hout⟩
  · exact ⟨_, _, s.withBlock_of_outside _ _ (Nat.le_add_left 1 _) hout⟩
  · exact ⟨_, _, s.withBlock_of_outside _ _ (Nat.le_add_left 1 _) hout⟩

/-- A STEP in RUN raises each kind of fault when its condition holds. -/
theorem step_of_faultCondition {s : State} {k : FaultKind} (hrun : s.Running) (hk : FaultCondition s k) :
    ∃ w a, step s = .next (s.takeFault k w a) := by
  cases k with
  | unknownOpcode =>
    obtain ⟨hpc, hillegal⟩ := hk
    exact ⟨_, _, step_of_illegal_word hrun hpc hillegal⟩
  | stackUnderflow =>
    obtain ⟨hpc, hdec, hempty⟩ := hk
    exact ⟨_, _, (step_of_decode_fetchWord hrun hpc hdec).trans (exec_ret_of_empty hempty)⟩
  | stackOverflow =>
    obtain ⟨hpc, ⟨nnn, hdec⟩, hfull⟩ := hk
    exact ⟨_, _, (step_of_decode_fetchWord hrun hpc hdec).trans (exec_call_of_full nnn hfull)⟩
  | addressOutOfRange =>
    by_cases hpc : 0xFFE < s.pc.toNat
    · exact ⟨_, _, step_of_pc_outside hrun hpc⟩
    · obtain ⟨i, hdec, hout⟩ := hk.resolve_left hpc
      rw [step_of_decode_fetchWord hrun (Nat.not_lt.1 hpc) hdec]
      exact exec_of_usesOutside hout

/-- A block instruction faults only for an address above 0xFFF among those it uses (R315). -/
theorem State.withBlock_faultOutcome {s t : State} {ins : Instr} {len : Nat} {done : State}
    (h : s.withBlock ins len done = .next t) (hdec : decode s.fetchWord = .ok ins) (hdone : done.fault = s.fault)
    (huses : 1 ≤ len → 0xFFF < s.i.toNat + len - 1 → UsesOutside s ins) : FaultOutcome s t := by
  by_cases hin : len = 0 ∨ s.i.toNat + len - 1 ≤ 0xFFF
  · cases h.symm.trans (s.withBlock_of_inside ins len done hin)
    exact .inl hdone
  · have hlen : 1 ≤ len := by omega
    have hout : 0xFFF < s.i.toNat + len - 1 := by omega
    cases h.symm.trans (s.withBlock_of_outside ins done hlen hout)
    exact .inr ⟨_, _, _, rfl, .inr ⟨ins, hdec, huses hlen hout⟩⟩

/-- EXECUTE of a fetched instruction raises a fault only on its condition: RET and CALL look at the stack, the block
instructions at I, and no other instruction faults. -/
theorem exec_faultOutcome {s t : State} {i : Instr} (hpc : s.pc.toNat ≤ 0xFFE) (hdec : decode s.fetchWord = .ok i)
    (h : exec i s = .next t) : FaultOutcome s t := by
  rcases exec_cases h with hf | hc
  · rcases hf.raisedBy with rfl | ⟨nnn, rfl⟩ | ⟨x, y, n, rfl⟩ | ⟨x, rfl | rfl | rfl⟩
    · cases htop : s.top with
      | some a => cases h.symm.trans (exec_ret_of_top htop); exact .inl rfl
      | none =>
        have hempty := s.top_eq_none.1 htop
        cases h.symm.trans (exec_ret_of_empty hempty)
        exact .inr ⟨.stackUnderflow, _, _, rfl, hpc, hdec, hempty⟩
    · by_cases hroom : s.stack.length < 16
      · cases h.symm.trans (exec_call_of_room nnn hroom); exact .inl rfl
      · have hfull := Nat.not_lt.1 hroom
        cases h.symm.trans (exec_call_of_full nnn hfull)
        exact .inr ⟨.stackOverflow, _, _, rfl, hpc, ⟨nnn, hdec⟩, hfull⟩
    · exact s.withBlock_faultOutcome h hdec rfl fun hn hout => .inl ⟨x, y, n, rfl, hn, hout⟩
    · exact s.withBlock_faultOutcome h hdec rfl fun _ hout => .inr (.inl ⟨x, rfl, hout⟩)
    · exact s.withBlock_faultOutcome h hdec rfl fun _ hout => .inr (.inr ⟨x, .inl rfl, hout⟩)
    · exact s.withBlock_faultOutcome h hdec rfl fun _ hout => .inr (.inr ⟨x, .inr rfl, hout⟩)
  · exact .inl hc.fault

/-- A STEP raises a fault only on its condition, and then does nothing else, in each phase (R317, R318). -/
theorem step_faultOutcome {s t : State} (h : step s = .next t) : FaultOutcome s t := by
  unfold step at h
  rcases s.stepFront_cases with
    ⟨-, hfront⟩ | ⟨-, hpc, hfront⟩ | ⟨-, hpc, ⟨_, hdec⟩, hfront⟩ | ⟨-, hpc, i, hdec, hfront⟩ <;> rw [hfront] at h
  · cases h; exact .inl rfl
  · cases h; exact .inr ⟨.addressOutOfRange, _, _, rfl, .inl hpc⟩
  · cases h; exact .inr ⟨.unknownOpcode, _, _, rfl, hpc, legalWord_eq_false_of_decode_error hdec⟩
  · exact exec_faultOutcome hpc hdec h

/-- A STEP in RUN ends in a fault of kind `k` exactly when the condition of `k` holds. -/
theorem step_fault_kind_iff {s t : State} (hrun : s.Running) (h : step s = .next t) (k : FaultKind) :
    t.fault.map (·.kind) = some k ↔ FaultCondition s k := by
  constructor
  · intro hkind
    rcases step_faultOutcome h with hsame | ⟨k', w, a, rfl, hk'⟩
    · rw [hsame, hrun.1] at hkind; cases hkind
    · cases hkind; exact hk'
  · intro hk
    obtain ⟨w, a, hstep⟩ := step_of_faultCondition hrun hk
    cases h.symm.trans hstep
    rfl

/-- Settles O18, kind by kind. -/
theorem faultsExactlyWhen : Obligations.FaultsExactlyWhen := by
  unfold Obligations.FaultsExactlyWhen
  intro s t hrun h
  have hiff := step_fault_kind_iff hrun h
  exact ⟨hiff .unknownOpcode, hiff .stackUnderflow, hiff .stackOverflow, hiff .addressOutOfRange⟩

/-- Settles O17: the fault in `t` is new, so `t` is `s` with the fault taken. -/
theorem faultsAreAllOrNothing : Obligations.FaultsAreAllOrNothing := by
  unfold Obligations.FaultsAreAllOrNothing
  intro s t hs h ht
  rcases step_faultOutcome h with hsame | ⟨k, w, a, rfl, -⟩
  · exact absurd (hsame.trans hs) ht
  · exact ⟨(haltedBy_takeFault s k w a).2, rfl, fun f hf => by cases hf; rfl⟩

/-- Settles O16. -/
theorem unknownOpcodeHalts : Obligations.UnknownOpcodeHalts := by
  unfold Obligations.UnknownOpcodeHalts
  exact fun s hrun hpc hillegal => ⟨_, step_of_illegal_word hrun hpc hillegal, haltedBy_takeFault s _ _ _⟩

/-- Every instruction has a meaning in every state: RET and CALL with either stack, a block instruction inside and
outside the array, the others without a condition (R310). -/
theorem exec_answers_next (i : Instr) (s : State) : ∃ t, exec i s = .next t := by
  cases i
  case ret =>
    cases htop : s.top with
    | some a => exact ⟨_, exec_ret_of_top htop⟩
    | none => exact ⟨_, exec_ret_of_empty (s.top_eq_none.1 htop)⟩
  case call nnn =>
    by_cases hroom : s.stack.length < 16
    · exact ⟨_, exec_call_of_room nnn hroom⟩
    · exact ⟨_, exec_call_of_full nnn (Nat.not_lt.1 hroom)⟩
  case drw | ldBVx | ldMemVx | ldVxMem =>
    rcases s.withBlock_cases _ _ _ with ⟨h, -⟩ | ⟨a, h, -⟩
    · exact ⟨_, h⟩
    · exact ⟨_, h⟩
  all_goals exact ⟨_, rfl⟩

theorem step_answers_next (s : State) : ∃ t, step s = .next t := by
  unfold step
  cases s.stepFront with
  | error t => exact ⟨t, rfl⟩
  | ok i => exact exec_answers_next i s

/-- Settles O6, input by input. -/
theorem everyInputAnswersNext : Obligations.EveryInputAnswersNext := by
  unfold Obligations.EveryInputAnswersNext
  intro inp s
  cases inp with
  | step => exact step_answers_next s
  | reset | load | tick | keyPress | setKeys => exact ⟨_, rfl⟩

/-- RESET is the one input after which a halted block is not halted (R316). -/
theorem control_ne_halt_iff_reset {inp : Input} {s t : State} (hs : s.control = .halt)
    (h : transition inp s = .next t) : t.control ≠ .halt ↔ inp = .reset := by
  constructor
  · intro ht
    rcases transition_control_cases h with ⟨-, hrun⟩ | ⟨hreset, -⟩ | ⟨-, hwait, -⟩ | hsame
    · cases hs.symm.trans hrun
    · exact hreset
    · cases hs.symm.trans hwait
    · exact absurd (hsame.trans hs) ht
  · rintro rfl
    cases h
    exact fun hhalt => nomatch hhalt

/-- Settles O14: a halted block is neither in RUN nor in WAIT_KEY. -/
theorem haltIsFrozen : Obligations.HaltIsFrozen := by
  unfold Obligations.HaltIsFrozen
  intro s hfault
  have hs : s.control = .halt := s.control_eq_halt.2 hfault
  have hn : ¬ s.Running := fun hrun => hfault hrun.1
  have hload (bytes : List Byte) : s.load bytes = (.refusedHalted, s) :=
    if_pos (Option.isSome_iff_ne_none.2 hfault)
  exact ⟨step_of_not_running hn, State.tick_of_not_running hn,
    fun k => State.keyPress_of_not_waiting k fun hwait => (nomatch hs.symm.trans hwait), hload, bne_iff_ne,
    fun _ _ => control_ne_halt_iff_reset hs⟩

/-- Inputs that each leave a state as it is leave it so one after the other (R334). -/
theorem run_of_forall_fixed {s : State} {inputs : List Input} (h : ∀ inp ∈ inputs, transition inp s = .next s) :
    run inputs s = .next s := by
  induction inputs with
  | nil => rfl
  | cons inp rest ih =>
    obtain ⟨hinp, hrest⟩ := List.forall_mem_cons.1 h
    rw [run, hinp]
    exact ih hrest

/-- Settles O45: a frame has only STEPs and a TICK, and a waiting block ignores both. -/
theorem framesHoldWhileWaiting : Obligations.FramesHoldWhileWaiting := by
  unfold Obligations.FramesHoldWhileWaiting
  intro steps s hwait
  have hn : ¬ s.Running := fun hrun => nomatch hwait.symm.trans (s.control_eq_run.2 hrun)
  refine run_of_forall_fixed fun inp hinp => ?_
  rcases List.mem_append.1 hinp with hstep | htick
  · rw [List.eq_of_mem_replicate hstep]
    exact step_of_not_running hn
  · rw [List.mem_singleton.1 htick]
    exact congrArg Host.Outcome.next (State.tick_of_not_running hn)

end Sys2Proof.Machine
end

section
/-! RESET, LOAD and the boot order (70_reset_and_hazards.md R340 to R343): the state each leaves, the first STEP of an
image, and the jump to itself (R348). -/

namespace Sys2Proof.Machine

/-- RESET leaves only the two fields for inputs as they were (R340, log 15). -/
theorem sameOutside_resetBlock (s : State) :
    SameOutside (fun p => p = .keys ∨ p = .draws) State.reset s.resetBlock := by
  intro p hp
  cases p with
  | keys => exact absurd (.inl rfl) hp
  | draws => exact absurd (.inr rfl) hp
  | pauseState => exact ⟨rfl, rfl⟩
  | reg | addressReg | pc | stack | delayTimer | soundTimer | byte | pixel | fault => rfl

/-- Settles O2. -/
theorem resetFromAnyState : Obligations.ResetFromAnyState := by
  unfold Obligations.ResetFromAnyState
  exact fun s => ⟨s.resetBlock, rfl, sameOutside_resetBlock s, rfl⟩

theorem imageFits_iff (bytes : List Byte) : imageFits bytes = true ↔ bytes.length ≤ 3584 := decide_eq_true_iff

/-- A halted block refuses LOAD (60_exceptions.md R316). -/
theorem State.load_of_halted {s : State} (h : s.fault ≠ none) (bytes : List Byte) :
    s.load bytes = (.refusedHalted, s) := by
  rw [State.load, if_pos (Option.isSome_iff_ne_none.2 h)]

theorem State.load_of_fits {s : State} {bytes : List Byte} (h : s.fault = none) (hlen : bytes.length ≤ 3584) :
    s.load bytes = (.loaded, s.store 0x200 bytes) := by
  rw [State.load, h, Option.isSome_none, if_neg Bool.false_ne_true, if_pos ((imageFits_iff bytes).2 hlen)]

theorem State.load_of_too_large {s : State} {bytes : List Byte} (h : s.fault = none) (hlen : 3584 < bytes.length) :
    s.load bytes = (.programTooLarge, s) := by
  have hbig : ¬ imageFits bytes = true := mt (imageFits_iff bytes).1 (Nat.not_le.2 hlen)
  rw [State.load, h, Option.isSome_none, if_neg Bool.false_ne_true, if_neg hbig]

/-- Settles O51: the largest image, 3584 bytes from 0x200, ends at 0xFFF, so every byte is stored. -/
theorem loadPlacesImage : Obligations.LoadPlacesImage := by
  unfold Obligations.LoadPlacesImage
  refine fun s bytes => ⟨fun hfault => State.load_of_halted hfault bytes, fun hfault hmem hlen => ?_,
    State.load_of_too_large⟩
  have hin : 0x200 + bytes.length ≤ 0x1000 := by omega
  rw [State.load_of_fits hfault hlen]
  exact ⟨rfl, fun k hk => State.read_store hmem hin hk, sameOutside_store hmem 0x200 bytes⟩

/-- The boot order from any state: the image in the memory of a block that was reset (R343). -/
theorem run_boot (s : State) {bytes : List Byte} (hlen : bytes.length ≤ 3584) :
    run (boot bytes) s = .next (s.resetBlock.store 0x200 bytes) := by
  have hrun : run (boot bytes) s = .next (s.resetBlock.load bytes).2 := rfl
  rw [hrun, State.load_of_fits rfl hlen]

/-- A FETCH at the address of a stored run reads its first two bytes, high byte first (20_memory.md R63). -/
theorem State.fetchWord_store {s : State} (hmem : s.MemOk) {hi lo : Byte} {rest : List Byte}
    (hin : s.pc.toNat + (rest.length + 2) ≤ 0x1000) :
    (s.store s.pc.toNat (hi :: lo :: rest)).fetchWord = hi ++ lo := by
  have hhigh := State.read_store hmem hin (bytes := hi :: lo :: rest) (k := 0) (by simp)
  have hlow := State.read_store hmem hin (bytes := hi :: lo :: rest) (k := 1) (by simp)
  exact congrArg₂ (· ++ ·) hhigh hlow

/-- Settles O52: after RESET memory is canonical, the block is in RUN and PC is 0x200, the base of LOAD. -/
theorem bootRunsImage : Obligations.BootRunsImage := by
  unfold Obligations.BootRunsImage
  intro s hi lo rest i hlen hdec
  refine ⟨s.resetBlock.store 0x200 (hi :: lo :: rest), run_boot s hlen, rfl, ?_⟩
  have hin : s.resetBlock.pc.toNat + (rest.length + 2) ≤ 0x1000 := Nat.add_le_add_left hlen 0x200
  have hword : (s.resetBlock.store 0x200 (hi :: lo :: rest)).fetchWord = hi ++ lo :=
    State.fetchWord_store Memory.wf_reset hin
  refine step_of_decode_fetchWord ⟨rfl, rfl⟩ (show 0x200 ≤ 0xFFE by decide) ?_
  rwa [hword]

/-- Settles O30: the jump replaces PC by its target (42_control_flow.md R191), here PC itself. -/
theorem selfJumpIsFixpoint : Obligations.SelfJumpIsFixpoint := by
  unfold Obligations.SelfJumpIsFixpoint
  intro nnn s hrun htarget hpc hword
  have hdec : decode s.fetchWord = .ok (.jp nnn) := by
    rw [hword]
    exact decode_encode (.jp nnn)
  have hsame : zextAddr nnn = s.pc := BitVec.eq_of_toNat_eq ((toNat_zextAddr nnn).trans htarget.symm)
  calc step s = .next (s.setPc (zextAddr nnn)) := step_of_decode_fetchWord hrun hpc hdec
    _ = .next s := by rw [hsame]; rfl

end Sys2Proof.Machine
end
